-- ==== Sys2Proof/Word.lean ====
section
/-! DEFINITION. The words of the block: the byte (rule R10) and the 16-bit field of a payload (rules R41, R153). -/

namespace Sys2Proof

/-- A byte: 8 bits, read as an unsigned value 0..255 (R10). Addition on it is addition modulo 256, the `+_8` of R11. -/
abbrev Byte := BitVec 8

/-- A 16-bit field of a payload, or one of the two diagnostic values of a checksum error (R41, R13). -/
abbrev Half := BitVec 16

end Sys2Proof
end

