-- ==== Sys2Proof/Config.lean ====
section
/-! DEFINITION. The constants the spec fixes (table R7, rule R8) and the parameters it leaves open (table R9). -/

namespace Sys2Proof

/-- `CAP`: bytes the receive buffer holds (table R7). -/
abbrev CAP : Nat := 128

/-- `FLAG`: the frame-start marker (table R7). -/
abbrev flagByte : Byte := 0x7E

/-- `ESC`: the escape marker (table R7). -/
abbrev escByte : Byte := 0x7D

/-- `ESC_XOR`: the value XORed onto a stuffed byte (table R7). -/
abbrev escXor : Byte := 0x20

/-- `ID_LEN` (table R7). -/
abbrev idLen : Nat := 1

/-- `TRAILER_LEN` (table R7). -/
abbrev trailerLen : Nat := 2

/-- `OVERHEAD = ID_LEN + TRAILER_LEN`, the 3 of the completeness test (table R7). -/
abbrev overhead : Nat := idLen + trailerLen

/-- `MAX_PAYLOAD = CAP - OVERHEAD = 125` (R8). -/
abbrev maxPayload : Nat := CAP - overhead

/-- One member of `EXTRA_KINDS`: a fixed-size kind (R163). -/
structure ExtraKind where
  id : Byte
  len : Nat
  deriving DecidableEq, Repr

/-- The parameters of table R9. They are fixed for the life of an instance and no step writes them (R31, R243);
every step takes them as they stand (log 1). -/
structure Config where
  idElectrodeEnable : Byte
  idBulkCapacitance : Byte
  idActiveCapacitance : Byte
  idAck : Byte
  idMotionCmd : Byte
  /-- `ACK_LEN`, 0 or 1 (R73, D6). -/
  ackLen : Fin 2
  /-- `EXTRA_KINDS` (R163, D7). -/
  extraKinds : List ExtraKind
  /-- `ENC_MAX_PAYLOAD` (R194, D8). -/
  encMaxPayload : Nat
  deriving DecidableEq, Repr

/-- Every id the catalog knows, the five kinds first. -/
def Config.ids (c : Config) : List Byte :=
  [c.idElectrodeEnable, c.idBulkCapacitance, c.idActiveCapacitance, c.idAck, c.idMotionCmd]
    ++ c.extraKinds.map ExtraKind.id

/-- The constraints of table R9: the ids pairwise distinct, the extra kinds' among them, and an extra kind's length at
most 125. -/
abbrev Config.Valid (c : Config) : Prop :=
  c.ids.Nodup ∧ ∀ k ∈ c.extraKinds, k.len ≤ maxPayload

/-- EX, the example assignment of spec/95_test_vectors.md, with the bound 125 of D8. DESIGN CHOICE, unsafe (log 2): the spec
gives no numeric id, and these are not the repository's. -/
def Config.ex : Config where
  idElectrodeEnable := 0x00
  idBulkCapacitance := 0x02
  idActiveCapacitance := 0x03
  idAck := 0x04
  idMotionCmd := 0x05
  ackLen := 1
  extraKinds := []
  encMaxPayload := 125

end Sys2Proof
end

