-- ==== Sys2Proof/Machine/Operands.lean ====
section
/-! DEFINITION. The operand forms: little-endian 16-bit fields (rules R11, R41, R76), runs of them, and byte stuffing of one
byte (rules R63, R191). -/

namespace Sys2Proof.Machine

/-- `u16le(lo, hi) = lo + hi * 256` (R11). -/
def u16le (lo hi : Byte) : Half := BitVec.ofNat 16 (lo.toNat + hi.toNat * 256)

/-- `v mod 256`, the byte a 16-bit field puts first on the wire (R41). -/
def loByte (v : Half) : Byte := BitVec.ofNat 8 (v.toNat % 256)

/-- `v div 256`, the byte a 16-bit field puts second on the wire (R41). -/
def hiByte (v : Half) : Byte := BitVec.ofNat 8 (v.toNat / 256)

/-- A 16-bit field as its two bytes, low byte first. -/
def halfBytes (v : Half) : List Byte := [loByte v, hiByte v]

/-- A list of 16-bit fields as bytes, `concat([v mod 256, v div 256] for v in values)` (R159). -/
def halvesBytes : List Half → List Byte
  | [] => []
  | v :: vs => loByte v :: hiByte v :: halvesBytes vs

/-- The 16-bit fields a run of bytes holds, two bytes each (R158). -/
def halvesOf : List Byte → List Half
  | lo :: hi :: rest => u16le lo hi :: halvesOf rest
  | _ => []

/-- The byte `p[k]` of a payload. Every use stands behind a length test, so the value past the end is never looked at. -/
def byteAt (p : List Byte) (k : Nat) : Byte := p.getD k 0

/-- The 16-bit field at payload offset `k`, `u16le(payload[k], payload[k+1])` (R76). -/
def halfAt (p : List Byte) (k : Nat) : Half := u16le (byteAt p k) (byteAt p (k + 1))

/-- The byte an escaped wire byte stands for, and the escaped form of a byte: `b XOR 0x20`, its own inverse (R63, R94). -/
def unstuffed (b : Byte) : Byte := b ^^^ escXor

/-- Whether a byte is one of the two that are stuffed (R63). -/
def isControl (x : Byte) : Bool := x == escByte || x == flagByte

/-- `STUFF(x)`: canonical stuffing of one unescaped byte (R191). -/
def stuffByte (x : Byte) : List Byte := if isControl x then [escByte, unstuffed x] else [x]

/-- The stuffed form of a byte sequence, in order. -/
def stuffAll : List Byte → List Byte
  | [] => []
  | x :: xs => stuffByte x ++ stuffAll xs

end Sys2Proof.Machine
end

