-- ==== Sys2Proof/Syntax.lean ====
section
/-! DEFINITION. The messages, outcomes and answers the operations carry (rules R13, R153, R210), and `Instr`: one
constructor for each row of spec/opcode_table.json. -/

namespace Sys2Proof

/-- `Message`, the closed tagged union of R153. A 16-byte mask, the length of an acknowledgment and of an extra kind's bytes are
checked in WellFormed. A 16-bit field is its bit pattern; `steps` is read through `BitVec.toInt` (R11, log 12). -/
inductive Message where
  | electrodeEnable (mask : List Byte)
  | bulkCapacitance (startIndex : Byte) (values : List Half)
  | activeCapacitance (baseline measurement : Half)
  /-- `Ack{data}` when `ACK_LEN = 1`, `Ack{}` when `ACK_LEN = 0`. -/
  | ack (data : Option Byte)
  | motionCmd (steps period : Half)
  | extra (id : Byte) (bytes : List Byte)
  deriving DecidableEq, Repr

/-- `ParseError`, the closed taxonomy of R210. -/
inductive ParseError where
  /-- The buffer's push at `count = 128` (R211); never an outcome of `feed` (C1). -/
  | sizeOverrun
  /-- A complete frame with a wrong trailer (R212). -/
  | checksumError (found expected : Half)
  /-- A complete frame with a good trailer and an id of no kind (R213). -/
  | unknownPacketId (id : Byte)
  /-- A payload shorter than its kind needs (R214). -/
  | deserializationError
  deriving DecidableEq, Repr

/-- `Outcome`, the one value every `feed` step returns (R13). -/
inductive ParseOutcome where
  | none
  | msg (m : Message)
  | err (e : ParseError)
  deriving DecidableEq, Repr

/-- The size probe's answer, the `Option<n>` of R13. -/
inductive Probe where
  | unknown
  | known (n : Nat)
  deriving DecidableEq, Repr

/-- Why an encoder operation refuses (R228). It is the operation's return value to HOST, not a stop of the machine. -/
inductive EncodeRefusal where
  /-- Payload longer than `ENC_MAX_PAYLOAD` (R194). -/
  | payloadTooLong
  /-- More than 255 values in a bulk-capacitance message (R159). -/
  | tooManyValues
  deriving DecidableEq, Repr

/-- The instructions: one constructor for each row of spec/opcode_table.json, in its order. -/
inductive Instr where
  /-- UNSTUFF (R121): the byte read with `escaping = 1`. -/
  | unstuff (d : Byte)
  /-- ESC (R122): 0x7D read with `escaping = 0`. -/
  | esc
  /-- FLAG (R123): 0x7E read with `escaping = 0`. -/
  | flag
  /-- DATA (R124): any other byte read with `escaping = 0`. -/
  | data (d : Byte)
  /-- ELECTRODE_ENABLE (R156): `id mask[16] checksum_a checksum_b`. -/
  | electrodeEnable (mask : List Byte) (ckA ckB : Byte)
  /-- BULK_CAPACITANCE (R158): `id start_index cnt values[2*cnt] checksum_a checksum_b`. -/
  | bulkCapacitance (startIndex cnt : Byte) (values : List Half) (ckA ckB : Byte)
  /-- ACTIVE_CAPACITANCE (R160): `id baseline[2] measurement[2] checksum_a checksum_b`. -/
  | activeCapacitance (baseline measurement : Half) (ckA ckB : Byte)
  /-- ACK (R161): `id data[ACK_LEN] checksum_a checksum_b`. -/
  | ack (data : Option Byte) (ckA ckB : Byte)
  /-- MOTION_CMD (R162): `id steps[2] period[2] checksum_a checksum_b`. -/
  | motionCmd (steps period : Half) (ckA ckB : Byte)
  /-- EXTRA (R163): `id bytes[k.len] checksum_a checksum_b`. -/
  | extra (id : Byte) (bytes : List Byte) (ckA ckB : Byte)
  /-- UNKNOWN (R154): `id checksum_a checksum_b`. -/
  | unknown (id ckA ckB : Byte)
  /-- FEED (R120): `feed(byte)`. -/
  | feed (b : Byte)
  /-- RESET (R135): the host's explicit reset. -/
  | reset
  /-- FULL_RESET (R134). -/
  | fullReset
  /-- ENCODE (R190): `encode(id, payload_bytes)`. -/
  | encode (id : Byte) (payload : List Byte)
  /-- ENCODE_MSG (R195): `encode(message)`. -/
  | encodeMsg (m : Message)
  /-- STUFF (R191). -/
  | stuff (x : Byte)
  /-- CK_NEW (R90). -/
  | ckNew
  /-- CK_ADD (R91): `add_byte(x)`. -/
  | ckAdd (x : Byte)
  /-- CK_GET (R92): `get()`. -/
  | ckGet
  /-- RB_PUSH (R100): `push(byte)`. -/
  | rbPush (v : Byte)
  /-- RB_CLEAR (R101). -/
  | rbClear
  /-- RB_ID (R102). -/
  | rbId
  /-- RB_PAYLOAD (R103). -/
  | rbPayload
  /-- RB_TRAILER (R104): `checksum()`. -/
  | rbTrailer
  /-- RB_CALC_CHECKSUM (R105): `calc_checksum()`. -/
  | rbCalcChecksum
  /-- RB_IS_COMPLETE (R106): `is_complete()`. -/
  | rbIsComplete
  /-- SIZE_PROBE (R151): `size_probe(id, partial_payload)`. -/
  | sizeProbe (id : Byte) (p : List Byte)
  /-- DECODE (R152): `decode(id, payload)`. -/
  | decode (id : Byte) (p : List Byte)
  /-- CAT_ENCODE (R155): the catalog's `encode(message)`. -/
  | catEncode (m : Message)
  deriving DecidableEq, Repr

/-- The three groups of rows of spec/opcode_table.json (R82). -/
inductive Format where
  | symbol
  | frame
  | op
  deriving DecidableEq, Repr

/-- The group an instruction's row stands in. -/
def Instr.format : Instr → Format
  | .unstuff _ => .symbol
  | .esc => .symbol
  | .flag => .symbol
  | .data _ => .symbol
  | .electrodeEnable _ _ _ => .frame
  | .bulkCapacitance _ _ _ _ _ => .frame
  | .activeCapacitance _ _ _ _ => .frame
  | .ack _ _ _ => .frame
  | .motionCmd _ _ _ _ => .frame
  | .extra _ _ _ _ => .frame
  | .unknown _ _ _ => .frame
  | .feed _ => .op
  | .reset => .op
  | .fullReset => .op
  | .encode _ _ => .op
  | .encodeMsg _ => .op
  | .stuff _ => .op
  | .ckNew => .op
  | .ckAdd _ => .op
  | .ckGet => .op
  | .rbPush _ => .op
  | .rbClear => .op
  | .rbId => .op
  | .rbPayload => .op
  | .rbTrailer => .op
  | .rbCalcChecksum => .op
  | .rbIsComplete => .op
  | .sizeProbe _ _ => .op
  | .decode _ _ => .op
  | .catEncode _ => .op

end Sys2Proof
end

