-- ==== Sys2Proof/Machine/CatalogFns.lean ====
section
/-! DEFINITION. The message catalog: the dispatch on the id (rule R150) and the three functions of every kind (rules R151 to R163).
They read the configuration and their arguments, and no state (R31). -/

namespace Sys2Proof.Machine

/-- The row of table R69 an id falls in. -/
inductive Kind where
  | electrodeEnable
  | bulkCapacitance
  | activeCapacitance
  | ack
  | motionCmd
  | extra (len : Nat)
  | unknown
  deriving DecidableEq, Repr

/-- The length an extra kind of this id declares, if there is one (R163). -/
def extraLen (ks : List ExtraKind) (id : Byte) : Option Nat :=
  match ks with
  | [] => none
  | k :: rest => if k.id = id then some k.len else extraLen rest id

/-- The single exhaustive match on the id (R150), tried in the order of pseudocode R151. -/
def kindOf (c : Config) (id : Byte) : Kind :=
  if id = c.idElectrodeEnable then .electrodeEnable
  else if id = c.idBulkCapacitance then .bulkCapacitance
  else if id = c.idActiveCapacitance then .activeCapacitance
  else if id = c.idAck then .ack
  else if id = c.idMotionCmd then .motionCmd
  else match extraLen c.extraKinds id with
    | some n => .extra n
    | none => .unknown

/-- `SIZE_PROBE(id, p)` (R151, R157). -/
def sizeProbe (c : Config) (id : Byte) (p : List Byte) : Probe :=
  match kindOf c id with
  | .electrodeEnable => .known 16
  | .bulkCapacitance => if p.length < 2 then .unknown else .known (2 + 2 * (byteAt p 1).toNat)
  | .activeCapacitance => .known 4
  | .ack => .known c.ackLen.val
  | .motionCmd => .known 4
  | .extra n => .known n
  | .unknown => .known 0

/-- `decode_ELECTRODE_ENABLE` (R156). -/
def decodeElectrodeEnable (p : List Byte) : Message := .electrodeEnable p

/-- `decode_BULK_CAPACITANCE` (R158): the count is the length of `values`, no field of the message. -/
def decodeBulkCapacitance (p : List Byte) : Message := .bulkCapacitance (byteAt p 0) (halvesOf (p.drop 2))

/-- `decode_ACTIVE_CAPACITANCE` (R160). -/
def decodeActiveCapacitance (p : List Byte) : Message := .activeCapacitance (halfAt p 0) (halfAt p 2)

/-- `decode_ACK` (R161): the byte `data` when `ACK_LEN = 1`, nothing when `ACK_LEN = 0`. -/
def decodeAck (p : List Byte) : Message := .ack p.head?

/-- `decode_MOTION_CMD` (R162). -/
def decodeMotionCmd (p : List Byte) : Message := .motionCmd (halfAt p 0) (halfAt p 2)

/-- `decode` of an extra kind (R163). -/
def decodeExtra (id : Byte) (p : List Byte) : Message := .extra id p

/-- `decode_<kind>(p)` for a known kind, given exactly the bytes the kind requires; an unknown id has no message (R154). -/
def decodeKind (k : Kind) (id : Byte) (p : List Byte) : Except ParseError Message :=
  match k with
  | .electrodeEnable => .ok (decodeElectrodeEnable p)
  | .bulkCapacitance => .ok (decodeBulkCapacitance p)
  | .activeCapacitance => .ok (decodeActiveCapacitance p)
  | .ack => .ok (decodeAck p)
  | .motionCmd => .ok (decodeMotionCmd p)
  | .extra _ => .ok (decodeExtra id p)
  | .unknown => .error (.unknownPacketId id)

/-- `DECODE(id, p)` (R152): the id first, then the length, then the leading required bytes; excess bytes are ignored (D13). -/
def decodeMessage (c : Config) (id : Byte) (p : List Byte) : Except ParseError Message :=
  if kindOf c id = .unknown then .error (.unknownPacketId id)
  else match sizeProbe c id p with
    | .unknown => .error .deserializationError
    | .known n =>
      if p.length < n then .error .deserializationError else decodeKind (kindOf c id) id (p.take n)

/-- `CAT_ENCODE(m)` (R155 to R163): the wire id and the payload bytes, or the refusal of a list longer than the count byte
holds (R159, D14). -/
def encodeMessage (c : Config) (m : Message) : Except EncodeRefusal (Byte × List Byte) :=
  match m with
  | .electrodeEnable mask => .ok (c.idElectrodeEnable, mask)
  | .bulkCapacitance startIndex values =>
    if 255 < values.length then .error .tooManyValues
    else .ok (c.idBulkCapacitance, startIndex :: BitVec.ofNat 8 values.length :: halvesBytes values)
  | .activeCapacitance baseline measurement =>
    .ok (c.idActiveCapacitance, halfBytes baseline ++ halfBytes measurement)
  | .ack data => .ok (c.idAck, data.toList)
  | .motionCmd steps period => .ok (c.idMotionCmd, halfBytes steps ++ halfBytes period)
  | .extra id bytes => .ok (id, bytes)

end Sys2Proof.Machine
end

