-- ==== Sys2Proof/WellFormed.lean ====
section
/-! DEFINITION. The checks a message and an instruction must pass under a configuration. A SYMBOL's precondition on `escaping` is
no check of the syntax: the decoder reads a symbol by it (rule R64). -/

namespace Sys2Proof

/-- A message of the catalog (R153): a 16-byte mask, an acknowledgment of `ACK_LEN` bytes, an extra kind's bytes of the
declared length. A bulk list has no bound here: CAT_ENCODE answers for it (R159). -/
def Message.wf (c : Config) : Message → Bool
  | .electrodeEnable mask => mask.length == 16
  | .bulkCapacitance _ _ => true
  | .activeCapacitance _ _ => true
  | .ack d => d.toList.length == c.ackLen.val
  | .motionCmd _ _ => true
  | .extra id bytes => Machine.kindOf c id == .extra bytes.length

/-- An instruction of the block: DATA holds neither control byte (R64), a FRAME row's payload has the length table R69 gives, an
UNKNOWN row's id belongs to no kind (R154), a probed payload has at most 125 bytes (R151). -/
def Instr.wf (c : Config) : Instr → Bool
  | .unstuff _ => true
  | .esc => true
  | .flag => true
  | .data d => !Machine.isControl d
  | .electrodeEnable mask _ _ => mask.length == 16
  | .bulkCapacitance _ cnt values _ _ => values.length == cnt.toNat
  | .activeCapacitance _ _ _ _ => true
  | .ack d _ _ => d.toList.length == c.ackLen.val
  | .motionCmd _ _ _ _ => true
  | .extra id bytes _ _ => Machine.kindOf c id == .extra bytes.length
  | .unknown id _ _ => Machine.kindOf c id == .unknown
  | .feed _ => true
  | .reset => true
  | .fullReset => true
  | .encode _ _ => true
  | .encodeMsg m => m.wf c
  | .stuff _ => true
  | .ckNew => true
  | .ckAdd _ => true
  | .ckGet => true
  | .rbPush _ => true
  | .rbClear => true
  | .rbId => true
  | .rbPayload => true
  | .rbTrailer => true
  | .rbCalcChecksum => true
  | .rbIsComplete => true
  | .sizeProbe _ p => decide (p.length ≤ maxPayload)
  | .decode _ _ => true
  | .catEncode m => m.wf c

end Sys2Proof
end

