-- ==== Sys2Proof/Decode.lean ====
section
/-! DEFINITION. The decoder of the two levels of encoding (rules R64, R69, R75) and the encoder after it, from the same tables. OP
rows have no bit encoding (R82). -/

namespace Sys2Proof

/-- How bytes are read: as one symbol of the stream, under the value of `escaping` (R64), or as one unescaped frame (R69). -/
inductive Level where
  | symbol (escaping : Bool)
  | frame
  deriving DecidableEq, Repr

/-- Why the decoder gives no instruction. -/
inductive DecodeReject where
  /-- There is no byte to read. -/
  | noByte
  /-- The header byte that holds the length has not arrived (R75). -/
  | lengthUnknown
  /-- Fewer bytes than the frame's payload and trailer need. -/
  | truncated
  deriving DecidableEq, Repr

/-- The symbol a byte is, decided by `escaping` first and the value second (table R64). -/
def decodeSymbol (escaping : Bool) (b : Byte) : Instr :=
  if escaping then .unstuff b
  else if b = escByte then .esc
  else if b = flagByte then .flag
  else .data b

/-- The FRAME instruction with this id, payload and trailer: the id selects the kind (R69), the payload's bytes are its fields
(R70 to R76). -/
def frameOf (c : Config) (id : Byte) (p : List Byte) (ckA ckB : Byte) : Instr :=
  match Machine.kindOf c id with
  | .electrodeEnable => .electrodeEnable p ckA ckB
  | .bulkCapacitance => .bulkCapacitance (Machine.byteAt p 0) (Machine.byteAt p 1) (Machine.halvesOf (p.drop 2)) ckA ckB
  | .activeCapacitance => .activeCapacitance (Machine.halfAt p 0) (Machine.halfAt p 2) ckA ckB
  | .ack => .ack p.head? ckA ckB
  | .motionCmd => .motionCmd (Machine.halfAt p 0) (Machine.halfAt p 2) ckA ckB
  | .extra _ => .extra id p ckA ckB
  | .unknown => .unknown id ckA ckB

/-- One unescaped frame off the front of the bytes: id, the payload length the size probe gives (R75), payload, trailer (R60). -/
def decodeFrame (c : Config) (bytes : List Byte) : Except DecodeReject (Instr × List Byte) :=
  match bytes with
  | [] => .error .noByte
  | id :: body =>
    match Machine.sizeProbe c id body with
    | .unknown => .error .lengthUnknown
    | .known n =>
      match body.drop n with
      | ckA :: ckB :: rest => .ok (frameOf c id (body.take n) ckA ckB, rest)
      | _ => .error .truncated

/-- The decoder: one instruction off the front of the bytes, and the bytes after it. -/
def decode (c : Config) (l : Level) (bytes : List Byte) : Except DecodeReject (Instr × List Byte) :=
  match l with
  | .symbol escaping =>
    match bytes with
    | [] => .error .noByte
    | b :: rest => .ok (decodeSymbol escaping b, rest)
  | .frame => decodeFrame c bytes

/-- The encoder: the level an instruction is read at and its bytes there. None for an OP row (R82). -/
def encode (c : Config) (i : Instr) : Option (Level × List Byte) :=
  match i with
  | .unstuff d => some (.symbol true, [d])
  | .esc => some (.symbol false, [0x7D])
  | .flag => some (.symbol false, [0x7E])
  | .data d => some (.symbol false, [d])
  | .electrodeEnable mask ckA ckB => some (.frame, c.idElectrodeEnable :: mask ++ [ckA, ckB])
  | .bulkCapacitance startIndex cnt values ckA ckB =>
    some (.frame, c.idBulkCapacitance :: startIndex :: cnt :: Machine.halvesBytes values ++ [ckA, ckB])
  | .activeCapacitance baseline measurement ckA ckB =>
    some (.frame, c.idActiveCapacitance :: Machine.halfBytes baseline ++ Machine.halfBytes measurement ++ [ckA, ckB])
  | .ack data ckA ckB => some (.frame, c.idAck :: data.toList ++ [ckA, ckB])
  | .motionCmd steps period ckA ckB =>
    some (.frame, c.idMotionCmd :: Machine.halfBytes steps ++ Machine.halfBytes period ++ [ckA, ckB])
  | .extra id bytes ckA ckB => some (.frame, id :: bytes ++ [ckA, ckB])
  | .unknown id ckA ckB => some (.frame, [id, ckA, ckB])
  | .feed _ => none
  | .reset => none
  | .fullReset => none
  | .encode _ _ => none
  | .encodeMsg _ => none
  | .stuff _ => none
  | .ckNew => none
  | .ckAdd _ => none
  | .ckGet => none
  | .rbPush _ => none
  | .rbClear => none
  | .rbId => none
  | .rbPayload => none
  | .rbTrailer => none
  | .rbCalcChecksum => none
  | .rbIsComplete => none
  | .sizeProbe _ _ => none
  | .decode _ _ => none
  | .catEncode _ => none

/-- The low `k` bytes of a number, least significant first: the bytes of an instruction as the opcode table numbers its bits. -/
def bytesOfWord : Nat → Nat → List Byte
  | 0, _ => []
  | k + 1, w => BitVec.ofNat 8 w :: bytesOfWord k (w / 256)

/-- The longest unescaped frame the layouts give: id, 2 + 2 * 255 payload bytes, trailer (R71). -/
def longestFrame : Nat := 515

/-- The bytes of a frame-level word: its `nbits` bits, and zeros above them. -/
def frameWordBytes (nbits w : Nat) : List Byte := bytesOfWord longestFrame (w % 2 ^ nbits)

/-- The instruction the decoder reads from a table row's word (log 14): a word of at most 8 bits is a byte of the stream, read with
`escaping = 0`; a longer one is an unescaped frame under EX. -/
def decodeTableWord (nbits w : Nat) : Option Instr :=
  let level := if nbits ≤ 8 then Level.symbol false else Level.frame
  let bytes := if nbits ≤ 8 then [BitVec.ofNat 8 w] else frameWordBytes nbits w
  match decode Config.ex level bytes with
  | .ok (i, _) => some i
  | .error _ => none

end Sys2Proof
end

