-- ==== Sys2Proof/Machine/State.lean ====
section
/-! DEFINITION. The state of one instance of the block (rules R20 to R35), what a step may answer, and the state after reset (table
R32). -/

namespace Sys2Proof.Machine

/-- The receive buffer `buf` (R25) as the list of its cells in the canonical form of Machine/Memory.lean. -/
abbrev Memory := List Host.Cell

/-- A checksum accumulator: the pair of 8-bit wrapping registers of R21. -/
structure Accumulator where
  a : Byte
  b : Byte
  deriving DecidableEq, Repr

/-- What stands next in the input: a byte the wire delivers (R40, one `feed`), the unescaped bytes of frames for the FRAME rows
(log 9), or a call of an operation (R6, R80). -/
inductive Request where
  | wireByte (b : Byte)
  | frameBytes (bytes : List Byte)
  | call (i : Instr)
  deriving DecidableEq, Repr

/-- The return value of the step just taken. The block latches none of it (R30): every step replaces it (log 5). -/
inductive Result where
  /-- The operation returns nothing: RESET, FULL_RESET, RB_CLEAR, CK_NEW, CK_ADD, and an idle step. -/
  | nothing
  /-- The outcome of a `feed` step (R13), or of the last byte of a frame. -/
  | outcome (o : ParseOutcome)
  /-- A byte sequence: ENCODE, ENCODE_MSG, STUFF, RB_PAYLOAD. -/
  | bytes (l : List Byte)
  /-- A pair of bytes: CK_GET, RB_TRAILER, RB_CALC_CHECKSUM. -/
  | pair (a b : Byte)
  /-- RB_PUSH: stored. -/
  | pushOk
  /-- RB_PUSH: `Fail(SizeOverrun)`. -/
  | pushFail (e : ParseError)
  /-- RB_ID: `Some(id)` or `NoId`. -/
  | idView (o : Option Byte)
  /-- RB_IS_COMPLETE. -/
  | complete (b : Bool)
  /-- SIZE_PROBE. -/
  | probe (p : Probe)
  /-- DECODE: `Ok(m)`. -/
  | decodeOk (m : Message)
  /-- DECODE: `Err(e)`. -/
  | decodeErr (e : ParseError)
  /-- CAT_ENCODE: the id and the payload. -/
  | encoded (id : Byte) (payload : List Byte)
  /-- ENCODE, ENCODE_MSG or CAT_ENCODE refuses (R228). -/
  | refused (r : EncodeRefusal)
  deriving DecidableEq, Repr

/-- The faults of the block: none. No byte value and no byte sequence makes it fault, hang or stop (R215, U3). -/
inductive Fault where
  deriving DecidableEq, Repr

/-- Why a step gives no meaning. -/
inductive Refusal where
  /-- An arm of exec without a meaning. Safe. -/
  | notModelled (mnemonic : String)
  /-- RB_TRAILER with fewer than three bytes held: the spec gives it no meaning there (R104, U4, D17). Safe. -/
  | trailerUndefined
  /-- RB_CALC_CHECKSUM with fewer than three bytes held: no meaning there (R105, U4, D17). Safe. -/
  | calcChecksumUndefined
  /-- Raised by the fetch: bytes given as a frame that are no whole frame (log 9). Safe. -/
  | undecodable (r : DecodeReject)
  /-- Raised by the fetch: a call of a SYMBOL or FRAME row, which arrive as bytes and are no operation (R82, log 15). Safe. -/
  | notAnOperation
  deriving DecidableEq, Repr

/-- The state. -/
structure State where
  /-- The parameters of table R9; no step writes them (R31, log 1). -/
  config : Config
  /-- `count`, bytes currently held, 0..128 (R22). -/
  count : Fin (CAP + 1)
  /-- `escaping`, the pending-unstuffing flag (R23). -/
  escaping : Bool
  /-- `buf` (R25). -/
  buf : Memory
  /-- `ck.a`, `ck.b` of the accumulator the component operations act on (R21, log 8). -/
  ck : Accumulator
  /-- The input stream, next first (R40, log 6). -/
  input : List Request
  /-- The output stream of the encoder, in transmission order (R40, R198, log 7). -/
  output : List Byte
  /-- The return value of the step just taken (R13, log 5). -/
  result : Result
  deriving DecidableEq, Repr

/-- What the fetch finds: nothing to do, an instruction with the state it runs in, or no instruction. -/
inductive Fetch where
  | idle
  | instr (i : Instr) (s : State)
  | refused (r : Refusal)
  deriving DecidableEq, Repr

/-- The state after reset, construction or power-on (R32, R241, R242). The configuration is EX (log 2); `buf` lists nothing
(log 3); both streams are empty (logs 6 and 7). -/
def State.reset : State where
  config := Config.ex
  count := 0
  escaping := false
  buf := []
  ck := ⟨0, 0⟩
  input := []
  output := []
  result := .nothing

end Sys2Proof.Machine
end

