-- ==== Sys2Proof/Machine/Accumulator.lean ====
section
/-! DEFINITION. The checksum accumulator (rules R90 to R93). One algorithm serves the parser, the encoder and the component operations
(R96). -/

namespace Sys2Proof.Machine

/-- A new accumulator (R90, D3). -/
def Accumulator.new : Accumulator := ⟨0, 0⟩

/-- `add_byte(x)` (R91): `a` first, and the new `a` is used when updating `b`; both wrap modulo 256. -/
def Accumulator.add (k : Accumulator) (x : Byte) : Accumulator := ⟨k.a + x, k.b + (k.a + x)⟩

/-- `get()` (R92): `a` first. -/
def Accumulator.get (k : Accumulator) : Byte × Byte := (k.a, k.b)

/-- `add_byte` of each byte in order. -/
def Accumulator.addAll (k : Accumulator) : List Byte → Accumulator
  | [] => k
  | x :: xs => (k.add x).addAll xs

/-- `cksum(s)` (R93): a fresh accumulator run over the bytes. -/
def cksum (l : List Byte) : Byte × Byte := (Accumulator.new.addAll l).get

end Sys2Proof.Machine
end

