-- ==== Sys2Proof/Machine/Flags.lean ====
section
/-! DEFINITION. The block's one status flag, `escaping` (rule R23). There is no other flag: the checksum additions lose their carries
(R91). -/

namespace Sys2Proof.Machine

/-- `escaping <- 1`, by an ESC symbol only (R122). -/
def setEscaping (s : State) : State := { s with escaping := true }

/-- `escaping <- 0`, by the UNSTUFF step that consumes it (R121) and by every full reset (R134). -/
def clearEscaping (s : State) : State := { s with escaping := false }

end Sys2Proof.Machine
end

