-- ==== Sys2Proof/Machine/Memory.lean ====
section
/-! DEFINITION. Reading and writing `buf` (rules R12, R40, R46). -/

namespace Sys2Proof.Machine

/-- What an index no cell lists reads as. DESIGN CHOICE, unsafe (log 3): the spec leaves the contents of `buf` at reset open, and no
rule reads them (R33). -/
def Memory.fill : Byte := 0

/-- The byte `buf[a]`. -/
def Memory.read (m : Memory) (a : Nat) : Byte :=
  match m with
  | [] => Memory.fill
  | (k, v) :: rest => if k = a then v else Memory.read rest a

/-- `MemWrite(a, 1, v)` (R12): the list stays sorted, and writing what an unlisted index reads as removes the cell. -/
def Memory.write (m : Memory) (a : Nat) (v : Byte) : Memory :=
  match m with
  | [] => if v = Memory.fill then [] else [(a, v)]
  | (k, x) :: rest =>
    if a < k then (if v = Memory.fill then (k, x) :: rest else (a, v) :: (k, x) :: rest)
    else if a = k then (if v = Memory.fill then rest else (a, v) :: rest)
    else (k, x) :: Memory.write rest a v

/-- `MemRead(i, n)` (R12): `n` bytes from index `i`, ascending. -/
def Memory.readRun (m : Memory) (i : Nat) : Nat → List Byte
  | 0 => []
  | n + 1 => Memory.read m i :: Memory.readRun m (i + 1) n

/-- Indices strictly rising from `lo` on and below 128, and no cell equal to what an unlisted index reads as. -/
def Memory.wfFrom (lo : Nat) : Memory → Bool
  | [] => true
  | (k, v) :: rest => decide (lo ≤ k) && decide (k < CAP) && (v != Memory.fill) && Memory.wfFrom (k + 1) rest

/-- The canonical form: equal contents of `buf` are equal lists. -/
def Memory.wf (m : Memory) : Bool := Memory.wfFrom 0 m

end Sys2Proof.Machine
end

