-- ==== Sys2Proof/Machine/Ops.lean ====
section
/-! DEFINITION. The shared operations: the receive buffer (rules R100 to R106), the full reset (R134), the outcome of a step and the entry
into an error (R12, R218), steps 4 to 6 of the feed step (R124 to R128), the arrival of a whole frame, and the fetch. -/

namespace Sys2Proof.Machine

/-- The return value of the step. -/
def answer (r : Result) (s : State) : State := { s with result := r }

/-- `emit v` (R12): the step ends with the outcome `v`. -/
def emit (o : ParseOutcome) (s : State) : State := answer (.outcome o) s

/-- `RB_CLEAR` (R101): `count <- 0`. The cells keep their bytes (R33, log 4). -/
def rbClear (s : State) : State := { s with count := 0 }

/-- `FULL_RESET` (R134), the parser's only reset: `count <- 0; escaping <- 0`. -/
def fullReset (s : State) : State := clearEscaping (rbClear s)

/-- `raise e` (R12, R218), the entry into an error: the values `e` carries were read by the caller, then the full reset, then the
outcome. Nothing is saved, and there is nothing to return from (R220). -/
def raiseError (e : ParseError) (s : State) : State := emit (.err e) (fullReset s)

/-- `RB_PUSH(v)` (R100): the byte goes to index `count` if `count < 128`, else nothing changes. -/
def rbPush (v : Byte) (s : State) : Except ParseError State :=
  if h : s.count.val < CAP then
    .ok { s with buf := s.buf.write s.count.val v, count := ⟨s.count.val + 1, Nat.succ_lt_succ h⟩ }
  else .error .sizeOverrun

/-- Byte 0, the id once a byte is held (R26). -/
def idByte (s : State) : Byte := s.buf.read 0

/-- `RB_ID` (R102). -/
def rbId (s : State) : Option Byte := if 1 ≤ s.count.val then some (idByte s) else none

/-- `RB_PAYLOAD` (R103): `buf[1, count-2)` once three bytes are held, else empty. -/
def rbPayload (s : State) : List Byte := if 3 ≤ s.count.val then s.buf.readRun 1 (s.count.val - 3) else []

/-- `RB_TRAILER` (R104) where its precondition `count >= 3` holds: the last two bytes held, the one received first first. -/
def rbTrailer (s : State) : Byte × Byte := (s.buf.read (s.count.val - 2), s.buf.read (s.count.val - 1))

/-- `RB_CALC_CHECKSUM` (R105) where its precondition `count >= 3` holds: `cksum(buf[0, count-2))`, on a fresh accumulator. -/
def rbCalcChecksum (s : State) : Byte × Byte := cksum (s.buf.readRun 0 (s.count.val - 2))

/-- `RB_IS_COMPLETE` (R106): equality of `count` with the probed length plus three, false with no id or no known length. -/
def rbIsComplete (s : State) : Bool :=
  match rbId s with
  | none => false
  | some id =>
    match sizeProbe s.config id (rbPayload s) with
    | .unknown => false
    | .known n => s.count.val == n + overhead

/-- Step 6 (R126 to R128): the trailer against the recomputed checksum, then the catalog's decode, everything read before the full
reset. The diagnostic values take the byte received first as the low one (R43). -/
def completeFrame (s : State) : State :=
  let found := rbTrailer s
  let expected := rbCalcChecksum s
  if found = expected then
    match decodeMessage s.config (idByte s) (rbPayload s) with
    | .ok m => emit (.msg m) (fullReset s)
    | .error e => raiseError e s
  else raiseError (.checksumError (u16le found.1 found.2) (u16le expected.1 expected.2)) s

/-- Steps 4 to 6 for one unescaped byte (R120): the store, whose failure resets silently (R124, C1), the completeness test (R125),
and the completed frame. -/
def storeByte (v : Byte) (s : State) : State :=
  match rbPush v s with
  | .error _ => emit .none (fullReset s)
  | .ok t => if rbIsComplete t then completeFrame t else emit .none t

/-- Unescaped bytes stored one after the other. -/
def storeAll : List Byte → State → State
  | [], s => s
  | v :: vs, s => storeAll vs (storeByte v s)

/-- The arrival of one whole frame, as a FRAME row reads it: from the clean state its FLAG brings about (R67, R123), its unescaped bytes
in the order of table R60, each through the store of R124 (log 9). -/
def receiveFrame (bytes : List Byte) (s : State) : State := storeAll bytes (fullReset s)

/-- The outcome codes of table R210, the spec's own (D15). -/
def outcomeCode : ParseOutcome → Nat
  | .none => 0
  | .msg _ => 1
  | .err (.checksumError _ _) => 2
  | .err (.unknownPacketId _) => 3
  | .err .deserializationError => 4
  | .err .sizeOverrun => 5

/-- What of a stream of frames is left once one frame was taken off its front. -/
def requeue (left : List Byte) (rest : List Request) : List Request :=
  match left with
  | [] => rest
  | b :: bs => .frameBytes (b :: bs) :: rest

/-- The fetch: the next request leaves the input, and its instruction is read from it. A wire byte is the symbol `escaping` makes of
it (R64), frame bytes are the frame their id selects (R69), a call is the
operation called, whatever its operands (logs 15 and 18). -/
def fetch (s : State) : Fetch :=
  match s.input with
  | [] => .idle
  | .wireByte b :: rest => .instr (decodeSymbol s.escaping b) { s with input := rest }
  | .frameBytes bytes :: rest =>
    match decodeFrame s.config bytes with
    | .error r => .refused (.undecodable r)
    | .ok (i, left) => .instr i { s with input := requeue left rest }
  | .call i :: rest =>
    if i.format = .op then .instr i { s with input := rest } else .refused .notAnOperation

end Sys2Proof.Machine
end

