-- ==== Sys2Proof/Machine/Catalog.lean ====
section
/-! DEFINITION. The meanings of SIZE_PROBE, DECODE and CAT_ENCODE (rules R151, R152, R155) over the functions of
Machine/CatalogFns.lean. They write nothing but their return value. -/

namespace Sys2Proof.Machine

/-- SIZE_PROBE (R151). -/
def execSizeProbe (id : Byte) (p : List Byte) (s : State) : Host.Outcome State Fault Refusal :=
  .next (answer (.probe (sizeProbe s.config id p)) s)

/-- DECODE (R152): an error is the return value, the parser is not reset. -/
def execDecode (id : Byte) (p : List Byte) (s : State) : Host.Outcome State Fault Refusal :=
  match decodeMessage s.config id p with
  | .ok m => .next (answer (.decodeOk m) s)
  | .error e => .next (answer (.decodeErr e) s)

/-- CAT_ENCODE (R155). -/
def execCatEncode (m : Message) (s : State) : Host.Outcome State Fault Refusal :=
  match encodeMessage s.config m with
  | .ok (id, payload) => .next (answer (.encoded id payload) s)
  | .error r => .next (answer (.refused r) s)

end Sys2Proof.Machine
end

