-- ==== Sys2Proof/Machine/Checksum.lean ====
section
/-! DEFINITION. The meanings of CK_NEW, CK_ADD and CK_GET (rules R90 to R92), on the accumulator of State. -/

namespace Sys2Proof.Machine

/-- CK_NEW (R90): `ck.a <- 0; ck.b <- 0`. -/
def execCkNew (s : State) : Host.Outcome State Fault Refusal :=
  .next (answer .nothing { s with ck := Accumulator.new })

/-- CK_ADD (R91). -/
def execCkAdd (x : Byte) (s : State) : Host.Outcome State Fault Refusal :=
  .next (answer .nothing { s with ck := s.ck.add x })

/-- CK_GET (R92): returns `(ck.a, ck.b)` and writes nothing. -/
def execCkGet (s : State) : Host.Outcome State Fault Refusal :=
  .next (answer (.pair s.ck.get.1 s.ck.get.2) s)

end Sys2Proof.Machine
end

