-- ==== Sys2Proof/Machine/Encoder.lean ====
section
/-! DEFINITION. The frame encoder (rules R190 to R198): a function of its arguments and the configuration (R29), whose bytes go to the
output stream. -/

namespace Sys2Proof.Machine

/-- `ENCODE(id, payload)` (R190): one flag, then the stuffed body and checksum, or the refusal of R194. -/
def encodeFrame (c : Config) (id : Byte) (payload : List Byte) : Except EncodeRefusal (List Byte) :=
  if c.encMaxPayload < payload.length then .error .payloadTooLong
  else
    let body := id :: payload
    .ok (flagByte :: stuffAll (body ++ [(cksum body).1, (cksum body).2]))

/-- `ENCODE_MSG(m)` (R195): CAT_ENCODE, then ENCODE. -/
def encodeMessageFrame (c : Config) (m : Message) : Except EncodeRefusal (List Byte) :=
  match encodeMessage c m with
  | .ok (id, payload) => encodeFrame c id payload
  | .error r => .error r

/-- The bytes of one frame leave in order, after every byte sent before (R198), and are the call's return value; a refusal produces
no bytes and is reported (R194, R228). -/
def transmit (r : Except EncodeRefusal (List Byte)) (s : State) : State :=
  match r with
  | .ok bytes => answer (.bytes bytes) { s with output := s.output ++ bytes }
  | .error e => answer (.refused e) s

/-- ENCODE (R190). -/
def execEncode (id : Byte) (payload : List Byte) (s : State) : Host.Outcome State Fault Refusal :=
  .next (transmit (encodeFrame s.config id payload) s)

/-- ENCODE_MSG (R195). -/
def execEncodeMsg (m : Message) (s : State) : Host.Outcome State Fault Refusal :=
  .next (transmit (encodeMessageFrame s.config m) s)

/-- STUFF (R191): the helper's answer; nothing is sent by it. -/
def execStuff (x : Byte) (s : State) : Host.Outcome State Fault Refusal := .next (answer (.bytes (stuffByte x)) s)

end Sys2Proof.Machine
end

