-- ==== Sys2Proof/Machine/Frames.lean ====
section
/-! DEFINITION. The meanings of the FRAME rows (rules R69, R154 to R163): the arrival of that whole frame, its bytes laid out as table R69
says and stored one by one (log 9). What the block makes of it, the typed message or an error, is steps 4 to 6 of the feed step. -/

namespace Sys2Proof.Machine

/-- ELECTRODE_ENABLE (R156). -/
def execElectrodeEnable (mask : List Byte) (ckA ckB : Byte) (s : State) : Host.Outcome State Fault Refusal :=
  .next (receiveFrame (s.config.idElectrodeEnable :: mask ++ [ckA, ckB]) s)

/-- BULK_CAPACITANCE (R157, R158); with `cnt >= 62` the frame overruns the buffer (R79, R108). -/
def execBulkCapacitance (startIndex cnt : Byte) (values : List Half) (ckA ckB : Byte) (s : State) :
    Host.Outcome State Fault Refusal :=
  .next (receiveFrame (s.config.idBulkCapacitance :: startIndex :: cnt :: halvesBytes values ++ [ckA, ckB]) s)

/-- ACTIVE_CAPACITANCE (R160). -/
def execActiveCapacitance (baseline measurement : Half) (ckA ckB : Byte) (s : State) :
    Host.Outcome State Fault Refusal :=
  .next (receiveFrame (s.config.idActiveCapacitance :: halfBytes baseline ++ halfBytes measurement ++ [ckA, ckB]) s)

/-- ACK (R161). -/
def execAck (data : Option Byte) (ckA ckB : Byte) (s : State) : Host.Outcome State Fault Refusal :=
  .next (receiveFrame (s.config.idAck :: data.toList ++ [ckA, ckB]) s)

/-- MOTION_CMD (R162). -/
def execMotionCmd (steps period : Half) (ckA ckB : Byte) (s : State) : Host.Outcome State Fault Refusal :=
  .next (receiveFrame (s.config.idMotionCmd :: halfBytes steps ++ halfBytes period ++ [ckA, ckB]) s)

/-- EXTRA (R163). -/
def execExtra (id : Byte) (bytes : List Byte) (ckA ckB : Byte) (s : State) : Host.Outcome State Fault Refusal :=
  .next (receiveFrame (id :: bytes ++ [ckA, ckB]) s)

/-- UNKNOWN (R154, R213): three bytes, whatever follows. -/
def execUnknown (id ckA ckB : Byte) (s : State) : Host.Outcome State Fault Refusal :=
  .next (receiveFrame [id, ckA, ckB] s)

end Sys2Proof.Machine
end

