-- ==== Sys2Proof/Machine/Parser.lean ====
section
/-! DEFINITION. The meanings of the four symbols, of FEED and of the two resets (rules R120 to R135). A symbol's precondition on `escaping`
(table R64) is met wherever a step runs it (log 10). -/

namespace Sys2Proof.Machine

/-- UNSTUFF (R121): `v <- d XOR 0x20; escaping <- 0`, then the store of R124. -/
def execUnstuff (d : Byte) (s : State) : Host.Outcome State Fault Refusal :=
  .next (storeByte (unstuffed d) (clearEscaping s))

/-- ESC (R122): `escaping <- 1; emit None`. -/
def execEsc (s : State) : Host.Outcome State Fault Refusal := .next (emit .none (setEscaping s))

/-- FLAG (R123): the full reset; the flag byte itself is not stored. -/
def execFlag (s : State) : Host.Outcome State Fault Refusal := .next (emit .none (fullReset s))

/-- DATA (R124 to R128): the byte as it is goes through the store. -/
def execData (d : Byte) (s : State) : Host.Outcome State Fault Refusal := .next (storeByte d s)

/-- FEED (R120): steps 1 to 3 classify the byte, and its symbol's arm runs. -/
def execFeed (b : Byte) (s : State) : Host.Outcome State Fault Refusal :=
  if s.escaping then execUnstuff b s
  else if b = escByte then execEsc s
  else if b = flagByte then execFlag s
  else execData b s

/-- RESET (R135), the host's explicit reset: no outcome is returned. -/
def execReset (s : State) : Host.Outcome State Fault Refusal := .next (answer .nothing (fullReset s))

/-- FULL_RESET (R134): it produces no outcome of its own. -/
def execFullReset (s : State) : Host.Outcome State Fault Refusal := .next (answer .nothing (fullReset s))

end Sys2Proof.Machine
end

