-- ==== Sys2Proof/Machine/ReceiveBuffer.lean ====
section
/-! DEFINITION. The meanings of the receive-buffer operations (rules R100 to R106). -/

namespace Sys2Proof.Machine

/-- RB_PUSH (R100): a failure is the operation's return value, and neither `buf` nor `count` changes. -/
def execRbPush (v : Byte) (s : State) : Host.Outcome State Fault Refusal :=
  match rbPush v s with
  | .ok t => .next (answer .pushOk t)
  | .error e => .next (answer (.pushFail e) s)

/-- RB_CLEAR (R101). -/
def execRbClear (s : State) : Host.Outcome State Fault Refusal := .next (answer .nothing (rbClear s))

/-- RB_ID (R102). -/
def execRbId (s : State) : Host.Outcome State Fault Refusal := .next (answer (.idView (rbId s)) s)

/-- RB_PAYLOAD (R103). -/
def execRbPayload (s : State) : Host.Outcome State Fault Refusal := .next (answer (.bytes (rbPayload s)) s)

/-- RB_TRAILER (R104): below three bytes the spec gives it no meaning (U4, D17). -/
def execRbTrailer (s : State) : Host.Outcome State Fault Refusal :=
  if 3 ≤ s.count.val then .next (answer (.pair (rbTrailer s).1 (rbTrailer s).2) s) else .refused .trailerUndefined

/-- RB_CALC_CHECKSUM (R105): below three bytes the spec gives it no meaning (U4, D17). -/
def execRbCalcChecksum (s : State) : Host.Outcome State Fault Refusal :=
  if 3 ≤ s.count.val then .next (answer (.pair (rbCalcChecksum s).1 (rbCalcChecksum s).2) s)
  else .refused .calcChecksumUndefined

/-- RB_IS_COMPLETE (R106). -/
def execRbIsComplete (s : State) : Host.Outcome State Fault Refusal :=
  .next (answer (.complete (rbIsComplete s)) s)

end Sys2Proof.Machine
end

