-- ==== Sys2Proof/Machine/Dispatch.lean ====
section
/-! DEFINITION. The dispatch: one arm per constructor of Instr, each a direct call of its meaning. -/

namespace Sys2Proof.Machine

def exec (i : Instr) (s : State) : Host.Outcome State Fault Refusal :=
  match i with
  | .unstuff d => Sys2Proof.Machine.execUnstuff d s
  | .esc => Sys2Proof.Machine.execEsc s
  | .flag => Sys2Proof.Machine.execFlag s
  | .data d => Sys2Proof.Machine.execData d s
  | .electrodeEnable mask ckA ckB => Sys2Proof.Machine.execElectrodeEnable mask ckA ckB s
  | .bulkCapacitance startIndex cnt values ckA ckB => Sys2Proof.Machine.execBulkCapacitance startIndex cnt values ckA ckB s
  | .activeCapacitance baseline measurement ckA ckB => Sys2Proof.Machine.execActiveCapacitance baseline measurement ckA ckB s
  | .ack data ckA ckB => Sys2Proof.Machine.execAck data ckA ckB s
  | .motionCmd steps period ckA ckB => Sys2Proof.Machine.execMotionCmd steps period ckA ckB s
  | .extra id bytes ckA ckB => Sys2Proof.Machine.execExtra id bytes ckA ckB s
  | .unknown id ckA ckB => Sys2Proof.Machine.execUnknown id ckA ckB s
  | .feed b => Sys2Proof.Machine.execFeed b s
  | .reset => Sys2Proof.Machine.execReset s
  | .fullReset => Sys2Proof.Machine.execFullReset s
  | .encode id payload => Sys2Proof.Machine.execEncode id payload s
  | .encodeMsg m => Sys2Proof.Machine.execEncodeMsg m s
  | .stuff x => Sys2Proof.Machine.execStuff x s
  | .ckNew => Sys2Proof.Machine.execCkNew s
  | .ckAdd x => Sys2Proof.Machine.execCkAdd x s
  | .ckGet => Sys2Proof.Machine.execCkGet s
  | .rbPush v => Sys2Proof.Machine.execRbPush v s
  | .rbClear => Sys2Proof.Machine.execRbClear s
  | .rbId => Sys2Proof.Machine.execRbId s
  | .rbPayload => Sys2Proof.Machine.execRbPayload s
  | .rbTrailer => Sys2Proof.Machine.execRbTrailer s
  | .rbCalcChecksum => Sys2Proof.Machine.execRbCalcChecksum s
  | .rbIsComplete => Sys2Proof.Machine.execRbIsComplete s
  | .sizeProbe id p => Sys2Proof.Machine.execSizeProbe id p s
  | .decode id p => Sys2Proof.Machine.execDecode id p s
  | .catEncode m => Sys2Proof.Machine.execCatEncode m s

end Sys2Proof.Machine
end

