-- ==== Sys2Proof/Machine/Step.lean ====
section
/-! DEFINITION. One step: the next request of the input is fetched and its instruction runs. With no request waiting the block is idle: it
keeps its state (rule R226) and returns nothing (R30). -/

namespace Sys2Proof.Machine

/-- One step of the block. -/
def step (s : State) : Host.Outcome State Fault Refusal :=
  match fetch s with
  | .idle => .next (answer .nothing s)
  | .instr i t => exec i t
  | .refused r => .refused r

/-- `s` with a table row's word standing next in its input (log 14): a word of at most 8 bits as a wire byte, with `escaping = 0`, the
mode `decodeTableWord` reads it in; a longer one as the bytes of an unescaped frame. -/
def State.withFetchWord (s : State) (nbits w : Nat) : State :=
  if nbits ≤ 8 then { s with escaping := false, input := .wireByte (BitVec.ofNat 8 w) :: s.input }
  else { s with input := .frameBytes (frameWordBytes nbits w) :: s.input }

end Sys2Proof.Machine
end

