-- ==== Sys2Proof/Safety.lean ====
section
/-! DEFINITION. What counts as a safe run, and the words statements are written in: the clean state, the parser at rest, the requests HOST
can make, streams of bytes, and what an instruction leaves alone. -/

namespace Sys2Proof.Machine

/-- The clean state (R15): `count = 0` and `escaping = 0`. -/
abbrev State.Clean (s : State) : Prop := s.count.val = 0 ∧ s.escaping = false

/-- The data invariant: `buf` is in canonical form and the configuration meets the constraints of table R9. -/
abbrev State.Inv (s : State) : Prop := s.buf.wf = true ∧ s.config.Valid

/-- The parser at rest between two steps: it never sits on a buffer that is complete or has passed its completion (R108 (c)). -/
def State.atRest (s : State) : Bool :=
  match rbId s with
  | none => true
  | some id =>
    match sizeProbe s.config id (rbPayload s) with
    | .unknown => true
    | .known n => decide (s.count.val < n + overhead)

/-- The operations HOST can issue (R6), whatever their operands. -/
def isHostOp : Instr → Bool
  | .feed _ => true
  | .reset => true
  | .encode _ _ => true
  | .encodeMsg _ => true
  | _ => false

/-- A request the outside world of R5 and R6 can make: a wire byte or a host operation. -/
def Request.host : Request → Bool
  | .wireByte _ => true
  | .frameBytes _ => false
  | .call i => isHostOp i

/-- Every request waiting is one the outside world can make. -/
abbrev State.HostDriven (s : State) : Prop := ∀ r ∈ s.input, Request.host r = true

/-- `s` with the bytes of a wire stream standing next in its input. -/
def State.withWire (s : State) (bytes : List Byte) : State :=
  { s with input := bytes.map Request.wireByte ++ s.input }

/-- FEED of each byte in order (R81): the outcomes returned, and the state after the last. -/
def feedAll : List Byte → State → List Result × State
  | [], s => ([], s)
  | b :: bs, s =>
    match exec (.feed b) s with
    | .next t => (t.result :: (feedAll bs t).1, (feedAll bs t).2)
    | .fault _ => ([], s)
    | .refused _ => ([], s)

/-- Two states differ at most in what `buf` holds at and above `count`, which no rule reads (R33, U5). -/
def State.sameBelow (s t : State) : Prop :=
  s.config = t.config ∧ s.count = t.count ∧ s.escaping = t.escaping ∧ s.ck = t.ck ∧ s.input = t.input ∧
    s.output = t.output ∧ s.result = t.result ∧ ∀ k, k < s.count.val → s.buf.read k = t.buf.read k

/-- What an operation that is no parser step leaves alone: the parser's registers, `buf`, the configuration and the input. -/
def sameParser (s t : State) : Prop :=
  t.config = s.config ∧ t.count = s.count ∧ t.escaping = s.escaping ∧ t.buf = s.buf ∧ t.input = s.input

/-- What a parser step leaves alone: the configuration, the accumulator, both streams. -/
def sameOutside (s t : State) : Prop :=
  t.config = s.config ∧ t.ck = s.ck ∧ t.input = s.input ∧ t.output = s.output

/-- A list of instructions, one after the other, up to the first that stops. -/
def execAll : List Instr → State → Host.Outcome State Fault Refusal
  | [], s => .next s
  | i :: is, s =>
    match exec i s with
    | .next t => execAll is t
    | .fault r => .fault r
    | .refused r => .refused r

/-- `L * s_0 + (L-1) * s_1 + ... + 1 * s_{L-1}`, the sum of R93's closed form. -/
def weightedSum : List Byte → Nat
  | [] => 0
  | x :: xs => (xs.length + 1) * x.toNat + weightedSum xs

/-- What a whole frame with these covered bytes and this trailer leaves: the clean state, its bytes in `buf` and no other byte of `buf`
changed, and as outcome the one given if the trailer is the checksum of the covered bytes, else ChecksumError with both
pairs (R126 to R128). -/
def FrameAnswer (i : Instr) (body : List Byte) (ckA ckB : Byte) (good : ParseOutcome) (s : State) : Prop :=
  ∃ t, exec i s = .next t ∧ t.Clean ∧ sameOutside s t ∧
    (∀ k, t.buf.read k = if k < body.length + 2 then byteAt (body ++ [ckA, ckB]) k else s.buf.read k) ∧
    ((ckA, ckB) = cksum body → t.result = .outcome good) ∧
    ((ckA, ckB) ≠ cksum body → ∃ found expected,
      t.result = .outcome (.err (.checksumError found expected)) ∧ found ≠ expected ∧
      found.toNat = ckA.toNat + ckB.toNat * 256 ∧
      expected.toNat = (cksum body).1.toNat + (cksum body).2.toNat * 256)

/-- The catalog's length for this id is the payload's, and no prefix of the payload probes to another length (R199). -/
def ProbeFits (c : Config) (id : Byte) (payload : List Byte) : Prop :=
  sizeProbe c id payload = .known payload.length ∧
    ∀ k, sizeProbe c id (payload.take k) = .unknown ∨ sizeProbe c id (payload.take k) = .known payload.length

/-- The last byte of the wire bytes `w` brings the outcome `o`, every byte before it `None`. -/
def outcomesOf (w : List Byte) (o : ParseOutcome) : List Result :=
  List.replicate (w.length - 1) (.outcome .none) ++ [.outcome o]

end Sys2Proof.Machine
end

