-- ==== Sys2Proof/Certificates/Slice0/Obligations.lean ====
section
/-! DEFINITION. The statements for the provers. Each quantifies over every state, hence over every configuration of table R9; where one
needs the constraints of R9 or the canonical form of `buf` it says so as a premise, and `StepKeepsInvariant` shows that
every step keeps both. -/

open Sys2Proof Sys2Proof.Machine

-- ==== Reset (spec/10_state.md section 5, spec/70_reset_and_hazards.md section 1) ====

/-- R135: RESET is the full reset of R134 and returns nothing, in every state. That FULL_RESET is an instruction of its own, answers
like RESET and touches the parser alone is the model's choice (log 20). -/
def Obligations.EveryResetLeavesTheCleanState : Prop :=
  ∀ s : State, ∃ t u,
    exec .reset s = .next t ∧ t.Clean ∧ t.result = .nothing ∧ sameOutside s t ∧
    exec .fullReset s = .next u ∧ u.Clean ∧ u.result = .nothing ∧ sameOutside s u

/-- The state right after construction or power-on has the values of table R32 (the spec's decisions D3 and D4; no outcome
pending is `Result.nothing`, log 5), and the premises of the invariants below hold there. The configuration EX and the empty
streams are the model's (logs 2, 6 and 7). -/
def Obligations.PowerOnIsCleanAndMeetsTheInvariants : Prop :=
  State.reset.Clean ∧ State.reset.ck = ⟨0, 0⟩ ∧ State.reset.result = .nothing ∧
  State.reset.Inv ∧ State.reset.atRest = true ∧ State.reset.HostDriven

-- ==== Checksum accumulator (spec/40_checksum.md) ====

/-- R90: CK_NEW gives (0, 0), the spec's decision D3, and no other instruction but CK_ADD writes the accumulator. -/
def Obligations.AccumulatorIsResetOnlyByConstruction : Prop :=
  (∀ s : State, exec .ckNew s = .next { s with ck := ⟨0, 0⟩, result := .nothing }) ∧
  ∀ (i : Instr) (s t : State), exec i s = .next t → i ≠ .ckNew → (∀ x, i ≠ .ckAdd x) → t.ck = s.ck

/-- R91: both additions wrap modulo 256, the second uses the new `a`, and nothing else is written. R92: CK_GET returns `a` first
and writes nothing. -/
def Obligations.CkAddUsesTheNewAAndCkGetReturnsBoth : Prop :=
  (∀ (x : Byte) (s : State), ∃ k : Accumulator,
    exec (.ckAdd x) s = .next { s with ck := k, result := .nothing } ∧
    k.a.toNat = (s.ck.a.toNat + x.toNat) % 256 ∧
    k.b.toNat = (s.ck.b.toNat + k.a.toNat) % 256) ∧
  ∀ s : State, exec .ckGet s = .next { s with result := .pair s.ck.a s.ck.b }

/-- R93: `cksum` is what CK_NEW, CK_ADD of each byte and CK_GET return, and it has the closed form. -/
def Obligations.CksumHasTheClosedForm : Prop :=
  (∀ (l : List Byte) (s : State), ∃ t,
    execAll (.ckNew :: l.map Instr.ckAdd ++ [.ckGet]) s = .next t ∧
    t.result = .pair (cksum l).1 (cksum l).2) ∧
  (∀ l : List Byte,
    (cksum l).1.toNat = (l.map BitVec.toNat).sum % 256 ∧ (cksum l).2.toNat = weightedSum l % 256) ∧
  cksum [] = (0, 0)

/-- R95: what the checksum detects and what it does not. -/
def Obligations.CksumDetectsEverySingleByteChange : Prop :=
  (∀ (p q r : List Byte) (x y : Byte),
    (cksum (p ++ y :: q ++ x :: r)).1 = (cksum (p ++ x :: q ++ y :: r)).1 ∧
    (cksum (p ++ y :: q ++ x :: r)).2 =
      (cksum (p ++ x :: q ++ y :: r)).2 + BitVec.ofNat 8 (q.length + 1) * (y - x)) ∧
  (∀ (p r : List Byte) (x d : Byte),
    (cksum (p ++ (x + d) :: r)).1 = (cksum (p ++ x :: r)).1 + d ∧
    (d ≠ 0 → cksum (p ++ (x + d) :: r) ≠ cksum (p ++ x :: r))) ∧
  (∀ (n : Nat) (l : List Byte), cksum (List.replicate n 0 ++ l) = cksum l) ∧
  (∀ (n : Nat) (l : List Byte),
    (cksum (l ++ List.replicate n 0)).1 = (cksum l).1 ∧
    ((cksum l).1 = 0 → (cksum (l ++ List.replicate n 0)).2 = (cksum l).2)) ∧
  ∃ l l' : List Byte, l.length = l'.length ∧ l ≠ l' ∧ cksum l = cksum l'

-- ==== Receive buffer (spec/41_receive_buffer.md) ====

/-- R100: below 128 the byte goes to index `count` and nothing else in `buf` changes; at 128 nothing changes and the answer is
SizeOverrun. -/
def Obligations.RbPushStoresAtCountOrFails : Prop :=
  ∀ (v : Byte) (s : State),
    (s.buf.wf = true → s.count.val < 128 → ∃ t,
      exec (.rbPush v) s = .next t ∧ t.count.val = s.count.val + 1 ∧ t.buf.read s.count.val = v ∧
      (∀ k, k ≠ s.count.val → t.buf.read k = s.buf.read k) ∧
      t.escaping = s.escaping ∧ t.result = .pushOk ∧ sameOutside s t) ∧
    (s.count.val = 128 → exec (.rbPush v) s = .next { s with result := .pushFail .sizeOverrun })

/-- R101: `count <- 0`, and nothing of the rest of the parser's state but `buf` may change. -/
def Obligations.RbClearEmptiesTheBuffer : Prop :=
  ∀ s : State, ∃ t, exec .rbClear s = .next t ∧
    t.count.val = 0 ∧ t.escaping = s.escaping ∧ t.result = .nothing ∧ sameOutside s t

/-- R102: byte 0 once a byte is held, else no id. -/
def Obligations.RbIdIsByteZero : Prop :=
  ∀ s : State,
    (1 ≤ s.count.val → exec .rbId s = .next { s with result := .idView (some (s.buf.read 0)) }) ∧
    (s.count.val = 0 → exec .rbId s = .next { s with result := .idView none })

/-- R103: the bytes from index 1 up to, not including, index `count-2`, in order; none below three bytes. -/
def Obligations.RbPayloadLeavesOutIdAndTrailer : Prop :=
  ∀ s : State, ∃ l : List Byte,
    exec .rbPayload s = .next { s with result := .bytes l } ∧ l.length = s.count.val - 3 ∧
    ∀ k, k < s.count.val - 3 → l[k]? = some (s.buf.read (1 + k))

/-- R104 and R105: from three bytes on, the last two bytes and the checksum of all but the last two. That each operation is refused by
name below three bytes is the model's reading (log 11) of the spec's own decision D17 (log 13). -/
def Obligations.TrailerAndChecksumNeedThreeBytes : Prop :=
  ∀ s : State,
    (3 ≤ s.count.val →
      exec .rbTrailer s =
        .next { s with result := .pair (s.buf.read (s.count.val - 2)) (s.buf.read (s.count.val - 1)) } ∧
      ∃ a b, (a, b) = cksum ((List.range (s.count.val - 2)).map s.buf.read) ∧
        exec .rbCalcChecksum s = .next { s with result := .pair a b }) ∧
    (s.count.val < 3 →
      exec .rbTrailer s = .refused .trailerUndefined ∧
      exec .rbCalcChecksum s = .refused .calcChecksumUndefined)

/-- R106: complete exactly when an id is held, its length is known and `count` equals it plus three; nothing is written. -/
def Obligations.RbIsCompleteTestsEquality : Prop :=
  ∀ s : State, ∃ b : Bool,
    exec .rbIsComplete s = .next { s with result := .complete b } ∧
    (b = true ↔ 1 ≤ s.count.val ∧ ∃ n,
      sizeProbe s.config (s.buf.read 0) (rbPayload s) = .known n ∧ s.count.val = n + 3)

/-- R107: read as every byte after the id, `payload_so_far` makes the same completeness answer, in every state. -/
def Obligations.BothReadingsOfPayloadSoFarAgree : Prop :=
  ∀ s : State,
    rbIsComplete s = true ↔ 1 ≤ s.count.val ∧ ∃ n,
      sizeProbe s.config (s.buf.read 0) (s.buf.readRun 1 (s.count.val - 1)) = .known n ∧ s.count.val = n + 3

/-- From R108 (a): a length above 125 is probed only for BULK_CAPACITANCE with 62 readings or more, and such a buffer is
complete at no count. -/
def Obligations.OnlyBulkIsEverTooLong : Prop :=
  ∀ s : State, s.config.Valid →
    (∀ (id : Byte) (p : List Byte) (n : Nat), sizeProbe s.config id p = .known n → maxPayload < n →
      id = s.config.idBulkCapacitance ∧ 62 ≤ (byteAt p 1).toNat) ∧
    (s.buf.read 0 = s.config.idBulkCapacitance → 62 ≤ (s.buf.read 2).toNat → rbIsComplete s = false)

-- ==== Frame parser (spec/42_frame_parser.md) ====

/-- R64: every byte is one of four symbols, by `escaping` first and the value second, and FEED runs that symbol. -/
def Obligations.FeedRunsTheSymbolTheByteIs : Prop :=
  ∀ (b : Byte) (s : State),
    (s.escaping = true → decodeSymbol s.escaping b = .unstuff b ∧ exec (.feed b) s = exec (.unstuff b) s) ∧
    (s.escaping = false → b = 0x7D → decodeSymbol s.escaping b = .esc ∧ exec (.feed b) s = exec .esc s) ∧
    (s.escaping = false → b = 0x7E → decodeSymbol s.escaping b = .flag ∧ exec (.feed b) s = exec .flag s) ∧
    (s.escaping = false → b ≠ 0x7D → b ≠ 0x7E →
      decodeSymbol s.escaping b = .data b ∧ exec (.feed b) s = exec (.data b) s)

/-- R122: ESC sets `escaping`, and that is all. -/
def Obligations.EscSetsEscapingOnly : Prop :=
  ∀ s : State, exec .esc s = .next { s with escaping := true, result := .outcome .none }

/-- R123: FLAG discards the frame in progress silently, whatever `count` was; the flag byte itself is not stored. -/
def Obligations.FlagDiscardsTheFrameSilently : Prop :=
  ∀ s : State, ∃ t, exec .flag s = .next t ∧ t.Clean ∧ t.result = .outcome .none ∧ sameOutside s t

/-- From R124: a store at `count = 128` drops the byte and everything held, with no error. -/
def Obligations.OverflowIsSilent : Prop :=
  ∀ (d : Byte) (s : State), s.count.val = 128 → ∃ t u,
    exec (.data d) s = .next t ∧ t.Clean ∧ t.result = .outcome .none ∧ sameOutside s t ∧
    exec (.unstuff d) s = .next u ∧ u.Clean ∧ u.result = .outcome .none ∧ sameOutside s u

/-- No reset writes a byte of `buf`, and a symbol's store writes the one byte of its push, whatever follows it. That the bytes
above `count` stay is the model's choice (log 4): the spec leaves them open (R33, U5). -/
def Obligations.ResetsWriteNoByteOfTheBuffer : Prop :=
  (∀ (i : Instr) (s t : State), i = .reset ∨ i = .fullReset ∨ i = .flag ∨ i = .rbClear →
    exec i s = .next t → t.buf = s.buf) ∧
  ∀ (d : Byte) (s t : State),
    (exec (.data d) s = .next t → (s.count.val = 128 → t.buf = s.buf) ∧ ∀ p, rbPush d s = .ok p → t.buf = p.buf) ∧
    (exec (.unstuff d) s = .next t →
      (s.count.val = 128 → t.buf = s.buf) ∧ ∀ p, rbPush (d ^^^ 0x20) s = .ok p → t.buf = p.buf)

/-- R125: a stored byte that leaves the buffer incomplete stays, with outcome None; the first byte of a frame always does.
UNSTUFF stores the byte XOR 0x20 and clears `escaping` (R121). -/
def Obligations.IncompleteStoreKeepsTheByte : Prop :=
  (∀ (d : Byte) (s t : State), s.buf.wf = true → rbPush d s = .ok t → rbIsComplete t = false → ∃ u,
    exec (.data d) s = .next u ∧ u.count.val = s.count.val + 1 ∧ u.escaping = s.escaping ∧
    u.buf.read s.count.val = d ∧ (∀ k, k ≠ s.count.val → u.buf.read k = s.buf.read k) ∧
    u.result = .outcome .none ∧ sameOutside s u) ∧
  (∀ (d : Byte) (s t : State), s.buf.wf = true → rbPush (d ^^^ 0x20) s = .ok t → rbIsComplete t = false → ∃ u,
    exec (.unstuff d) s = .next u ∧ u.count.val = s.count.val + 1 ∧ u.escaping = false ∧
    u.buf.read s.count.val = d ^^^ 0x20 ∧ (∀ k, k ≠ s.count.val → u.buf.read k = s.buf.read k) ∧
    u.result = .outcome .none ∧ sameOutside s u) ∧
  ∀ (v : Byte) (s : State), s.count.val = 0 → ∃ t, rbPush v s = .ok t ∧ rbIsComplete t = false

/-- R126 and R127: a store that completes the buffer with a good checksum answers what the catalog makes of id and payload, read
before the full reset; the payload has exactly the probed length, so the one decode error that can occur is UnknownPacketId. -/
def Obligations.GoodFrameIsDecodedThenReset : Prop :=
  ∀ (d : Byte) (s t : State), rbIsComplete t = true → rbTrailer t = rbCalcChecksum t →
    rbPush d s = .ok t ∨ rbPush (d ^^^ 0x20) s = .ok t → ∃ o,
      sizeProbe t.config (t.buf.read 0) (rbPayload t) = .known (rbPayload t).length ∧
      (∀ m, decodeMessage t.config (t.buf.read 0) (rbPayload t) = .ok m → o = .msg m) ∧
      (∀ e, decodeMessage t.config (t.buf.read 0) (rbPayload t) = .error e →
        o = .err e ∧ e = .unknownPacketId (t.buf.read 0)) ∧
      (rbPush d s = .ok t → ∃ u, exec (.data d) s = .next u ∧ u.Clean ∧ u.result = .outcome o ∧ sameOutside s u) ∧
      (rbPush (d ^^^ 0x20) s = .ok t → ∃ u,
        exec (.unstuff d) s = .next u ∧ u.Clean ∧ u.result = .outcome o ∧ sameOutside s u)

/-- R128: a store that completes the buffer with a bad checksum answers ChecksumError with both values packed, never equal,
whatever the id is. Which byte is the low one is the spec's decision D10 (R43). -/
def Obligations.BadChecksumIsReportedThenReset : Prop :=
  ∀ (d : Byte) (s t : State), rbIsComplete t = true → rbTrailer t ≠ rbCalcChecksum t → ∃ found expected : Half,
    found.toNat = (rbTrailer t).1.toNat + (rbTrailer t).2.toNat * 256 ∧
    expected.toNat = (rbCalcChecksum t).1.toNat + (rbCalcChecksum t).2.toNat * 256 ∧
    found ≠ expected ∧
    (rbPush d s = .ok t → ∃ u, exec (.data d) s = .next u ∧ u.Clean ∧
      u.result = .outcome (.err (.checksumError found expected)) ∧ sameOutside s u) ∧
    (rbPush (d ^^^ 0x20) s = .ok t → ∃ u, exec (.unstuff d) s = .next u ∧ u.Clean ∧
      u.result = .outcome (.err (.checksumError found expected)) ∧ sameOutside s u)

/-- R133: the transition table over `(escaping, count)` and the outcome, row by row. -/
def Obligations.FeedFollowsTheTransitionTable : Prop :=
  ∀ (b : Byte) (s : State), ∃ u, exec (.feed b) s = .next u ∧
    (s.escaping = false → b = 0x7D →
      u.escaping = true ∧ u.count = s.count ∧ u.result = .outcome .none) ∧
    (s.escaping = false → b = 0x7E →
      u.escaping = false ∧ u.count.val = 0 ∧ u.result = .outcome .none) ∧
    ∀ v : Byte, (s.escaping = true ∧ v = b ^^^ 0x20) ∨ (s.escaping = false ∧ b ≠ 0x7D ∧ b ≠ 0x7E ∧ v = b) →
      u.escaping = false ∧
      (s.count.val = 128 → u.count.val = 0 ∧ u.result = .outcome .none) ∧
      ∀ t, rbPush v s = .ok t →
        (rbIsComplete t = false → u.count.val = s.count.val + 1 ∧ u.result = .outcome .none) ∧
        (rbIsComplete t = true → rbTrailer t = rbCalcChecksum t →
          u.count.val = 0 ∧
          ((∃ m, decodeMessage t.config (t.buf.read 0) (rbPayload t) = .ok m ∧ u.result = .outcome (.msg m)) ∨
            (∃ id, decodeMessage t.config (t.buf.read 0) (rbPayload t) = .error (.unknownPacketId id) ∧
              u.result = .outcome (.err (.unknownPacketId id))) ∨
            (decodeMessage t.config (t.buf.read 0) (rbPayload t) = .error .deserializationError ∧
              u.result = .outcome (.err .deserializationError)))) ∧
        (rbIsComplete t = true → rbTrailer t ≠ rbCalcChecksum t →
          u.count.val = 0 ∧ ∃ found expected, u.result = .outcome (.err (.checksumError found expected)))

/-- R27: `count` stays in 0..128, and the state is clean after every message or error, every FLAG, every overflow and every host
reset. -/
def Obligations.CleanAfterEveryOutcome : Prop :=
  (∀ (b : Byte) (s u : State), exec (.feed b) s = .next u →
    u.count.val ≤ 128 ∧
    (∀ o, u.result = .outcome o → o ≠ .none → u.Clean) ∧
    (s.escaping = false → b = 0x7E → u.Clean) ∧
    (s.count.val = 128 → (s.escaping = true ∨ (b ≠ 0x7D ∧ b ≠ 0x7E)) → u.Clean)) ∧
  ∀ s u : State, exec .reset s = .next u → u.Clean

/-- From R120, R211 and R214: FEED answers in every state, with one outcome, which is never SizeOverrun nor
DeserializationError; it touches neither the configuration, the accumulator nor the streams. -/
def Obligations.FeedAlwaysAnswersOneOutcome : Prop :=
  ∀ (b : Byte) (s : State), ∃ u o, exec (.feed b) s = .next u ∧ u.result = .outcome o ∧
    outcomeCode o ≤ 3 ∧ o ≠ .err .sizeOverrun ∧ o ≠ .err .deserializationError ∧ sameOutside s u

/-- From R132: a 0x7E with `escaping` clear resynchronises, one with `escaping` set clears it, so two always do. -/
def Obligations.TwoFlagsAlwaysResynchronise : Prop :=
  ∀ s t : State, exec (.feed 0x7E) s = .next t →
    (s.escaping = false → t.Clean) ∧ t.escaping = false ∧
    ∃ u, exec (.feed 0x7E) t = .next u ∧ u.Clean ∧ u.result = .outcome .none

-- ==== Frames (spec/30_encoding.md section 4, spec/43_message_catalog.md section 2) ====

/-- From R156, R160, R161, R162 and R163: a whole frame of a fixed-size kind, from every state, answers its message or
ChecksumError. A FRAME row as one instruction, and the bytes it leaves in `buf`, are the model's (logs 9 and 4). -/
def Obligations.FixedSizeFramesAreDelivered : Prop :=
  ∀ (s : State) (ckA ckB : Byte), s.Inv →
    (∀ mask : List Byte, mask.length = 16 →
      FrameAnswer (.electrodeEnable mask ckA ckB) (s.config.idElectrodeEnable :: mask) ckA ckB
        (.msg (.electrodeEnable mask)) s) ∧
    (∀ baseline measurement : Half,
      FrameAnswer (.activeCapacitance baseline measurement ckA ckB)
        [s.config.idActiveCapacitance, loByte baseline, hiByte baseline, loByte measurement, hiByte measurement]
        ckA ckB (.msg (.activeCapacitance baseline measurement)) s) ∧
    (∀ d : Option Byte, d.toList.length = s.config.ackLen.val →
      FrameAnswer (.ack d ckA ckB) (s.config.idAck :: d.toList) ckA ckB (.msg (.ack d)) s) ∧
    (∀ steps period : Half,
      FrameAnswer (.motionCmd steps period ckA ckB)
        [s.config.idMotionCmd, loByte steps, hiByte steps, loByte period, hiByte period]
        ckA ckB (.msg (.motionCmd steps period)) s) ∧
    (∀ (id : Byte) (bytes : List Byte), (⟨id, bytes.length⟩ : ExtraKind) ∈ s.config.extraKinds →
      FrameAnswer (.extra id bytes ckA ckB) (id :: bytes) ckA ckB (.msg (.extra id bytes)) s)

/-- From R157 and R158: a bulk-capacitance frame of at most 61 readings, the receivable ones, answers its message or
ChecksumError (logs 9 and 4 as above). -/
def Obligations.ReceivableBulkFramesAreDelivered : Prop :=
  ∀ (s : State) (startIndex cnt : Byte) (values : List Half) (ckA ckB : Byte), s.Inv →
    values.length = cnt.toNat → cnt.toNat ≤ 61 →
    FrameAnswer (.bulkCapacitance startIndex cnt values ckA ckB)
      (s.config.idBulkCapacitance :: startIndex :: cnt :: halvesBytes values) ckA ckB
      (.msg (.bulkCapacitance startIndex values)) s

/-- From R79 and R124: a bulk-capacitance frame of 62 readings or more answers nothing up to and including its 129th byte, which
leaves the clean state; the instruction still takes its step (log 9). -/
def Obligations.UnreceivableBulkFramesAreDroppedSilently : Prop :=
  ∀ (s : State) (startIndex cnt : Byte) (values : List Half) (ckA ckB : Byte), s.Inv →
    values.length = cnt.toNat → 62 ≤ cnt.toNat →
    (∃ t, exec (.bulkCapacitance startIndex cnt values ckA ckB) s = .next t ∧ sameOutside s t) ∧
    ∀ bytes, bytes = s.config.idBulkCapacitance :: startIndex :: cnt :: halvesBytes values ++ [ckA, ckB] →
      129 ≤ bytes.length ∧ (receiveFrame (bytes.take 129) s).Clean ∧
      ∀ k, k < 129 → (receiveFrame (bytes.take (k + 1)) s).result = .outcome .none

/-- From R213: a frame of an unknown id is three bytes, and answers UnknownPacketId if the trailer is (id, id), else
ChecksumError (logs 9 and 4 as above). -/
def Obligations.UnknownFramesAreReported : Prop :=
  ∀ (s : State) (id ckA ckB : Byte), s.Inv → id ∉ s.config.ids →
    FrameAnswer (.unknown id ckA ckB) [id] ckA ckB (.err (.unknownPacketId id)) s ∧ cksum [id] = (id, id)

/-- A FRAME row is what its wire bytes bring about: a flag, then its unescaped bytes stuffed, fed one by one with `escaping`
clear, leave exactly the state the FRAME instruction leaves. The reading of a FRAME row as an instruction is the model's (log
9), and so is that exec runs one that is not well-formed (log 18). -/
def Obligations.FrameInstructionIsItsWireBytesFed : Prop :=
  ∀ (i : Instr) (bytes : List Byte) (s : State), encode s.config i = some (.frame, bytes) → s.escaping = false →
    exec i s = .next (feedAll (flagByte :: stuffAll bytes) s).2

-- ==== Message catalog (spec/43_message_catalog.md) ====

/-- R151: the size probe of every kind, and zero for an unknown id; nothing is written. -/
def Obligations.SizeProbeAnswersPerKind : Prop :=
  ∀ (s : State) (p : List Byte), s.config.Valid →
    exec (.sizeProbe s.config.idElectrodeEnable p) s = .next { s with result := .probe (.known 16) } ∧
    (p.length < 2 →
      exec (.sizeProbe s.config.idBulkCapacitance p) s = .next { s with result := .probe .unknown }) ∧
    (∀ p0 p1 rest, p = p0 :: p1 :: rest →
      exec (.sizeProbe s.config.idBulkCapacitance p) s =
        .next { s with result := .probe (.known (2 + 2 * p1.toNat)) }) ∧
    exec (.sizeProbe s.config.idActiveCapacitance p) s = .next { s with result := .probe (.known 4) } ∧
    exec (.sizeProbe s.config.idAck p) s = .next { s with result := .probe (.known s.config.ackLen.val) } ∧
    exec (.sizeProbe s.config.idMotionCmd p) s = .next { s with result := .probe (.known 4) } ∧
    (∀ k ∈ s.config.extraKinds, exec (.sizeProbe k.id p) s = .next { s with result := .probe (.known k.len) }) ∧
    ∀ id, id ∉ s.config.ids → exec (.sizeProbe id p) s = .next { s with result := .probe (.known 0) }

/-- R152: DECODE looks the id up first; a known id fails exactly on a payload shorter than the probed length. That the bytes
past that length are ignored is the spec's decision D13. -/
def Obligations.DecodeChecksTheIdThenTheLength : Prop :=
  ∀ (s : State) (id : Byte) (p : List Byte),
    (id ∉ s.config.ids → exec (.decode id p) s = .next { s with result := .decodeErr (.unknownPacketId id) }) ∧
    (id ∈ s.config.ids →
      (sizeProbe s.config id p = .unknown →
        exec (.decode id p) s = .next { s with result := .decodeErr .deserializationError }) ∧
      ∀ n, sizeProbe s.config id p = .known n →
        (p.length < n → exec (.decode id p) s = .next { s with result := .decodeErr .deserializationError }) ∧
        (n ≤ p.length → ∃ m, exec (.decode id p) s = .next { s with result := .decodeOk m } ∧
          exec (.decode id (p.take n)) s = .next { s with result := .decodeOk m }))

/-- R154: an unknown id probes to zero, decodes to UnknownPacketId whatever the payload, is met by no encoding, and completes at
three bytes. -/
def Obligations.UnknownIdIsADefinedOutcome : Prop :=
  ∀ (s : State) (id : Byte), id ∉ s.config.ids →
    (∀ p, exec (.sizeProbe id p) s = .next { s with result := .probe (.known 0) } ∧
      exec (.decode id p) s = .next { s with result := .decodeErr (.unknownPacketId id) }) ∧
    (∀ m p, m.wf s.config = true → exec (.catEncode m) s ≠ .next { s with result := .encoded id p }) ∧
    (s.buf.read 0 = id → (rbIsComplete s = true ↔ s.count.val = 3))

/-- R156: the three functions of ELECTRODE_ENABLE. CAT_ENCODE of a mask that is not 16 bytes long, outside the domain of R153, is the
model's choice (log 18). -/
def Obligations.ElectrodeEnableMaskIsCopied : Prop :=
  ∀ (s : State) (p : List Byte),
    exec (.sizeProbe s.config.idElectrodeEnable p) s = .next { s with result := .probe (.known 16) } ∧
    (p.length < 16 → exec (.decode s.config.idElectrodeEnable p) s =
      .next { s with result := .decodeErr .deserializationError }) ∧
    (16 ≤ p.length → exec (.decode s.config.idElectrodeEnable p) s =
      .next { s with result := .decodeOk (.electrodeEnable (p.take 16)) }) ∧
    exec (.catEncode (.electrodeEnable p)) s = .next { s with result := .encoded s.config.idElectrodeEnable p }

/-- R157 to R159: the three functions of BULK_CAPACITANCE; the buffer's probe first knows the length at `count = 5`. The refusal
of a list longer than 255, and of 62 values or more by the encoder, are the spec's decision D14. -/
def Obligations.BulkCapacitanceCountIsTheSecondByte : Prop :=
  ∀ s : State, s.config.Valid →
    (sizeProbe s.config s.config.idBulkCapacitance (rbPayload s) = .unknown ↔ s.count.val < 5) ∧
    (∀ p : List Byte, p.length < 2 →
      exec (.sizeProbe s.config.idBulkCapacitance p) s = .next { s with result := .probe .unknown } ∧
      exec (.decode s.config.idBulkCapacitance p) s =
        .next { s with result := .decodeErr .deserializationError }) ∧
    (∀ (startIndex cnt : Byte) (l : List Byte),
      exec (.sizeProbe s.config.idBulkCapacitance (startIndex :: cnt :: l)) s =
        .next { s with result := .probe (.known (2 + 2 * cnt.toNat)) } ∧
      (l.length < 2 * cnt.toNat →
        exec (.decode s.config.idBulkCapacitance (startIndex :: cnt :: l)) s =
          .next { s with result := .decodeErr .deserializationError }) ∧
      (2 * cnt.toNat ≤ l.length → ∃ values : List Half,
        exec (.decode s.config.idBulkCapacitance (startIndex :: cnt :: l)) s =
          .next { s with result := .decodeOk (.bulkCapacitance startIndex values) } ∧
        values.length = cnt.toNat ∧
        ∀ i, i < cnt.toNat → ∃ v lo hi, values[i]? = some v ∧ l[2 * i]? = some lo ∧ l[2 * i + 1]? = some hi ∧
          v.toNat = lo.toNat + hi.toNat * 256)) ∧
    ∀ (startIndex : Byte) (values : List Half),
      (values.length ≤ 255 → ∃ (cnt : Byte) (l : List Byte),
        exec (.catEncode (.bulkCapacitance startIndex values)) s =
          .next { s with result := .encoded s.config.idBulkCapacitance (startIndex :: cnt :: l) } ∧
        cnt.toNat = values.length ∧ l.length = 2 * values.length ∧
        ∀ i v, values[i]? = some v → ∃ lo hi, l[2 * i]? = some lo ∧ l[2 * i + 1]? = some hi ∧
          lo.toNat = v.toNat % 256 ∧ hi.toNat = v.toNat / 256) ∧
      (255 < values.length →
        exec (.catEncode (.bulkCapacitance startIndex values)) s = .next { s with result := .refused .tooManyValues }) ∧
      (62 ≤ values.length → values.length ≤ 255 → s.config.encMaxPayload = 125 →
        exec (.encodeMsg (.bulkCapacitance startIndex values)) s = .next { s with result := .refused .payloadTooLong })

/-- R160: the three functions of ACTIVE_CAPACITANCE, little-endian. -/
def Obligations.ActiveCapacitanceIsLittleEndian : Prop :=
  ∀ s : State, s.config.Valid →
    (∀ p, exec (.sizeProbe s.config.idActiveCapacitance p) s = .next { s with result := .probe (.known 4) } ∧
      (p.length < 4 → exec (.decode s.config.idActiveCapacitance p) s =
        .next { s with result := .decodeErr .deserializationError })) ∧
    (∀ p0 p1 p2 p3 : Byte, ∃ baseline measurement : Half,
      exec (.decode s.config.idActiveCapacitance [p0, p1, p2, p3]) s =
        .next { s with result := .decodeOk (.activeCapacitance baseline measurement) } ∧
      baseline.toNat = p0.toNat + p1.toNat * 256 ∧ measurement.toNat = p2.toNat + p3.toNat * 256) ∧
    ∀ baseline measurement : Half, ∃ p0 p1 p2 p3 : Byte,
      exec (.catEncode (.activeCapacitance baseline measurement)) s =
        .next { s with result := .encoded s.config.idActiveCapacitance [p0, p1, p2, p3] } ∧
      p0.toNat = baseline.toNat % 256 ∧ p1.toNat = baseline.toNat / 256 ∧
      p2.toNat = measurement.toNat % 256 ∧ p3.toNat = measurement.toNat / 256

/-- R161: the three functions of ACK, for both values of `ACK_LEN`, a parameter by the spec's decision D6. -/
def Obligations.AckHasTheConfiguredLength : Prop :=
  ∀ s : State, s.config.Valid →
    (∀ p, exec (.sizeProbe s.config.idAck p) s = .next { s with result := .probe (.known s.config.ackLen.val) }) ∧
    (s.config.ackLen = 1 →
      exec (.decode s.config.idAck []) s = .next { s with result := .decodeErr .deserializationError } ∧
      ∀ d p, exec (.decode s.config.idAck (d :: p)) s = .next { s with result := .decodeOk (.ack (some d)) } ∧
        exec (.catEncode (.ack (some d))) s = .next { s with result := .encoded s.config.idAck [d] }) ∧
    (s.config.ackLen = 0 →
      (∀ p, exec (.decode s.config.idAck p) s = .next { s with result := .decodeOk (.ack none) }) ∧
      exec (.catEncode (.ack none)) s = .next { s with result := .encoded s.config.idAck [] })

/-- R162: the three functions of MOTION_CMD; that `steps` is two's complement the spec adds from general knowledge (R11, G2, log
12). -/
def Obligations.MotionCmdStepsIsTwosComplement : Prop :=
  ∀ s : State, s.config.Valid →
    (∀ p, exec (.sizeProbe s.config.idMotionCmd p) s = .next { s with result := .probe (.known 4) } ∧
      (p.length < 4 → exec (.decode s.config.idMotionCmd p) s =
        .next { s with result := .decodeErr .deserializationError })) ∧
    (∀ p0 p1 p2 p3 : Byte, ∃ steps period : Half,
      exec (.decode s.config.idMotionCmd [p0, p1, p2, p3]) s =
        .next { s with result := .decodeOk (.motionCmd steps period) } ∧
      (p0.toNat + p1.toNat * 256 < 32768 → steps.toInt = (p0.toNat + p1.toNat * 256 : Nat)) ∧
      (32768 ≤ p0.toNat + p1.toNat * 256 → steps.toInt = (p0.toNat + p1.toNat * 256 : Nat) - (65536 : Int)) ∧
      period.toNat = p2.toNat + p3.toNat * 256) ∧
    ∀ steps period : Half, ∃ p0 p1 p2 p3 : Byte,
      exec (.catEncode (.motionCmd steps period)) s =
        .next { s with result := .encoded s.config.idMotionCmd [p0, p1, p2, p3] } ∧
      (0 ≤ steps.toInt → (p0.toNat : Int) = steps.toInt % 256 ∧ (p1.toNat : Int) = steps.toInt / 256) ∧
      (steps.toInt < 0 → (p0.toNat : Int) = (steps.toInt + 65536) % 256 ∧
        (p1.toNat : Int) = (steps.toInt + 65536) / 256) ∧
      p2.toNat = period.toNat % 256 ∧ p3.toNat = period.toNat / 256

/-- R163: the three functions of an extra kind, of the class the spec's decision D7 admits. CAT_ENCODE of bytes that have not the
declared length, outside the domain of R153, is the model's choice (log 18). -/
def Obligations.ExtraKindsAreOpaqueBytes : Prop :=
  ∀ (s : State) (k : ExtraKind), s.config.Valid → k ∈ s.config.extraKinds →
    k.len ≤ 125 ∧
    (∀ p, exec (.sizeProbe k.id p) s = .next { s with result := .probe (.known k.len) } ∧
      (k.len ≤ p.length → exec (.decode k.id p) s =
        .next { s with result := .decodeOk (.extra k.id (p.take k.len)) })) ∧
    ∀ bytes, exec (.catEncode (.extra k.id bytes)) s = .next { s with result := .encoded k.id bytes }

/-- R164: probe, decode and encode agree on every message of the catalog. -/
def Obligations.CatalogFunctionsAgree : Prop :=
  ∀ (s t : State) (m : Message) (id : Byte) (p : List Byte), s.config.Valid → m.wf s.config = true →
    exec (.catEncode m) s = .next t → t.result = .encoded id p →
    (∀ k, id ≠ s.config.idBulkCapacitance ∨ 2 ≤ (p.take k).length →
      exec (.sizeProbe id (p.take k)) s = .next { s with result := .probe (.known p.length) }) ∧
    exec (.decode id p) s = .next { s with result := .decodeOk m }

-- ==== Frame encoder (spec/44_frame_encoder.md) ====

/-- R190: within the bound, ENCODE answers one flag and the stuffed body and checksum. That the bytes also go to the output stream
behind those sent before is the model's choice (log 7, D1); that it refuses over the bound is the spec's own decision D8
(R194, log 13). -/
def Obligations.EncodeFramesIdPayloadAndChecksum : Prop :=
  ∀ (s : State) (id : Byte) (payload w : List Byte),
    (payload.length ≤ s.config.encMaxPayload →
      w = 0x7E :: (id :: payload ++ [(cksum (id :: payload)).1, (cksum (id :: payload)).2]).flatMap
        (fun x => if x = 0x7D ∨ x = 0x7E then [0x7D, x ^^^ 0x20] else [x]) →
      exec (.encode id payload) s = .next { s with output := s.output ++ w, result := .bytes w }) ∧
    (s.config.encMaxPayload < payload.length →
      exec (.encode id payload) s = .next { s with result := .refused .payloadTooLong })

/-- R191: STUFF, applied to the id, every payload byte and both checksum bytes, and what it leaves no trace of in the encoder's
output: no second 0x7E, and behind every 0x7D a 0x5D or 0x5E. -/
def Obligations.StuffingLeavesNoControlByteAlone : Prop :=
  (∀ (s : State) (x : Byte),
    (x = 0x7D → exec (.stuff x) s = .next { s with result := .bytes [0x7D, 0x5D] }) ∧
    (x = 0x7E → exec (.stuff x) s = .next { s with result := .bytes [0x7D, 0x5E] }) ∧
    (x ≠ 0x7D → x ≠ 0x7E → exec (.stuff x) s = .next { s with result := .bytes [x] })) ∧
  ∀ (s t : State) (id : Byte) (payload w : List Byte), exec (.encode id payload) s = .next t → t.result = .bytes w →
    w = flagByte :: stuffAll (id :: payload ++ [(cksum (id :: payload)).1, (cksum (id :: payload)).2]) ∧
    w[0]? = some 0x7E ∧ (∀ k : Nat, 0 < k → w[k]? ≠ some 0x7E) ∧
    ∀ k : Nat, w[k]? = some 0x7D → w[k + 1]? = some 0x5D ∨ w[k + 1]? = some 0x5E

/-- R193: the length of the output. -/
def Obligations.EncodeLengthCountsTheStuffedBytes : Prop :=
  ∀ (s t : State) (id : Byte) (payload w : List Byte), exec (.encode id payload) s = .next t → t.result = .bytes w →
    w.length = 1 + (payload.length + 3) +
      (id :: payload ++ [(cksum (id :: payload)).1, (cksum (id :: payload)).2]).countP (fun x => x == 0x7D || x == 0x7E) ∧
    4 ≤ w.length ∧ (s.config.encMaxPayload = 125 → w.length ≤ 257)

/-- R194, the spec's decision D8: a payload over the bound is refused with no output, and this is the encoder's only failure. -/
def Obligations.EncodeRefusesLongPayloads : Prop :=
  ∀ (s : State) (id : Byte) (payload : List Byte),
    (s.config.encMaxPayload < payload.length →
      exec (.encode id payload) s = .next { s with result := .refused .payloadTooLong }) ∧
    ∀ t r, exec (.encode id payload) s = .next t → t.result = .refused r → s.config.encMaxPayload < payload.length

/-- R195: ENCODE_MSG is CAT_ENCODE and then ENCODE, with the refusals of both; at the bound 125 only a bulk list of 62 values or
more meets the second (D8, D14). That a message outside the domain of R153 is answered too, and how, is the model's choice (log
18). -/
def Obligations.EncodeMsgIsCatEncodeThenEncode : Prop :=
  ∀ (s : State) (m : Message),
    (∀ id p, exec (.catEncode m) s = .next { s with result := .encoded id p } →
      exec (.encodeMsg m) s = exec (.encode id p) s) ∧
    (∀ r, exec (.catEncode m) s = .next { s with result := .refused r } →
      exec (.encodeMsg m) s = .next { s with result := .refused r }) ∧
    ∃ t, exec (.encodeMsg m) s = .next t ∧
      (s.config.Valid → s.config.encMaxPayload = 125 → m.wf s.config = true →
        (t.result = .refused .payloadTooLong ↔
          ∃ startIndex values, m = .bulkCapacitance startIndex values ∧ 62 ≤ values.length ∧ values.length ≤ 255))

/-- R29: the encoder's answer depends on its arguments and the configuration alone; it leaves the parser as it is, and a parser
step neither reads nor writes what the encoder put out. ENCODE_MSG of a message outside the domain of R153 is the model's choice
(log 18). -/
def Obligations.EncoderAndParserDoNotInfluenceEachOther : Prop :=
  (∀ (s s' t t' : State) (i : Instr), (∃ id p, i = .encode id p) ∨ (∃ m, i = .encodeMsg m) →
    s.config = s'.config → exec i s = .next t → exec i s' = .next t' →
    t.result = t'.result ∧ sameParser s t ∧ t.ck = s.ck) ∧
  ∀ (b : Byte) (s u : State) (out : List Byte), exec (.feed b) s = .next u →
    u.output = s.output ∧ exec (.feed b) { s with output := out } = .next { u with output := out }

/-- R199: the round trip of encoder and parser, from every state with `escaping` clear; its premise on the probe holds of every
CAT_ENCODE result and of an unknown id with the empty payload. -/
def Obligations.EncodedFrameRoundTrips : Prop :=
  (∀ (s t : State) (id : Byte) (payload w : List Byte), s.buf.wf = true → s.escaping = false →
    payload.length ≤ maxPayload → ProbeFits s.config id payload →
    exec (.encode id payload) s = .next t → t.result = .bytes w →
    ∃ o u, feedAll w s = (outcomesOf w o, u) ∧ u.Clean ∧ sameOutside s u ∧
      (∀ m, exec (.decode id payload) s = .next { s with result := .decodeOk m } → o = .msg m) ∧
      (∀ e, exec (.decode id payload) s = .next { s with result := .decodeErr e } → o = .err e)) ∧
  (∀ (c : Config) (m : Message) (id : Byte) (payload : List Byte), c.Valid → m.wf c = true →
    encodeMessage c m = .ok (id, payload) → ProbeFits c id payload) ∧
  ∀ (c : Config) (id : Byte), id ∉ c.ids → ProbeFits c id []

/-- The round-trip property S3 (R199, R164): every message of the catalog the encoder sends comes back as that message on the
last wire byte, with no outcome before it. -/
def Obligations.EncodedMessageComesBack : Prop :=
  ∀ (s t : State) (m : Message) (w : List Byte), s.Inv → s.config.encMaxPayload ≤ maxPayload → s.escaping = false →
    m.wf s.config = true → exec (.encodeMsg m) s = .next t → t.result = .bytes w →
    ∃ u, feedAll w s = (outcomesOf w (.msg m), u) ∧ u.Clean ∧ sameOutside s u

/-- From R250: one changed payload byte, sent unstuffed before and after and not the count byte of a bulk frame, is always
reported as ChecksumError with two different values, on the frame's last byte. -/
def Obligations.OneCorruptedPayloadByteIsReported : Prop :=
  ∀ (s t : State) (id : Byte) (p q w w' : List Byte) (x y : Byte), s.buf.wf = true → s.escaping = false →
    (p ++ x :: q).length ≤ maxPayload → ProbeFits s.config id (p ++ x :: q) →
    isControl x = false → isControl y = false → x ≠ y → (id = s.config.idBulkCapacitance → p.length ≠ 1) →
    exec (.encode id (p ++ x :: q)) s = .next t → t.result = .bytes w →
    w' = w.set (1 + (stuffAll (id :: p)).length) y →
    ∃ found expected u, feedAll w' s = (outcomesOf w' (.err (.checksumError found expected)), u) ∧
      found ≠ expected ∧ u.Clean

-- ==== The machine as a whole ====

/-- A step takes the next request off the input and runs the instruction it decodes to, or the operation called, whatever its
operands (logs 6, 9, 15 and 18). -/
def Obligations.StepRunsTheDecodedInstruction : Prop :=
  (∀ (s : State) (b : Byte) (rest : List Request) (i : Instr), s.input = .wireByte b :: rest →
    decode s.config (.symbol s.escaping) [b] = .ok (i, []) →
    i.wf s.config = true ∧ step s = exec i { s with input := rest }) ∧
  (∀ (s : State) (bytes left : List Byte) (rest : List Request) (i : Instr), s.input = .frameBytes bytes :: rest →
    decode s.config .frame bytes = .ok (i, left) →
    step s = exec i { s with input := if left = [] then rest else .frameBytes left :: rest }) ∧
  (∀ (s : State) (rest : List Request) (i : Instr), s.input = .call i :: rest → i.format = .op →
    step s = exec i { s with input := rest }) ∧
  (∀ s : State, s.input = [] → step s = .next { s with result := .nothing })

/-- A wire stream standing in the input is FEED of each byte in order: step by step the outcomes, and the state after the last
(R81). -/
def Obligations.WireStreamIsRepeatedFeed : Prop :=
  ∀ (s : State) (bytes : List Byte),
    Host.Core.run Sys2Proof.core bytes.length (s.withWire bytes) = .next (feedAll bytes s).2 ∧
    ∀ k, k < bytes.length → ∃ t : State, Host.Core.run Sys2Proof.core (k + 1) (s.withWire bytes) = .next t ∧
      (feedAll bytes s).1[k]? = some t.result

/-- Decoding the encoding of a well-formed SYMBOL or FRAME instruction gives it back, with whatever follows it left over. -/
def Obligations.DecodeOfEncodeIsTheInstruction : Prop :=
  ∀ (c : Config) (i : Instr) (l : Level) (bytes rest : List Byte), c.Valid → i.wf c = true →
    encode c i = some (l, bytes) → decode c l (bytes ++ rest) = .ok (i, rest)

/-- The other direction: whatever bytes the decoder reads an instruction from are that instruction's encoding, and the
instruction is well-formed. -/
def Obligations.DecodedBytesAreTheEncoding : Prop :=
  ∀ (c : Config) (i : Instr) (l : Level) (bytes rest : List Byte), decode c l bytes = .ok (i, rest) →
    i.wf c = true ∧ ∃ front, encode c i = some (l, front) ∧ bytes = front ++ rest

/-- Words written out from tables R64 and R60, under EX, decode to the instructions they stand for. -/
def Obligations.SampleWordsDecode : Prop :=
  decode Config.ex (.symbol false) [0x7D] = .ok (.esc, []) ∧
  decode Config.ex (.symbol false) [0x7E] = .ok (.flag, []) ∧
  decode Config.ex (.symbol false) [0x41] = .ok (.data 0x41, []) ∧
  decode Config.ex (.symbol true) [0x7E] = .ok (.unstuff 0x7E, []) ∧
  decode Config.ex .frame [0x03, 0x10, 0x11, 0x12, 0x13, 0x49, 0xB9] =
    .ok (.activeCapacitance 0x1110 0x1312 0x49 0xB9, []) ∧
  decode Config.ex .frame [0x02, 0x00, 0x02, 0x04, 0x00, 0x05, 0x00, 0x0D, 0x32] =
    .ok (.bulkCapacitance 0 2 [4, 5] 0x0D 0x32, []) ∧
  decode Config.ex .frame [0x55, 0x55, 0x56] = .ok (.unknown 0x55 0x55 0x56, [])

/-- Every step keeps `buf` in canonical form and the configuration within table R9. -/
def Obligations.StepKeepsInvariant : Prop :=
  ∀ s t : State, s.Inv → step s = .next t → t.Inv

/-- R31: no instruction and no step changes a parameter. -/
def Obligations.ConfigurationIsConstant : Prop :=
  (∀ (i : Instr) (s t : State), exec i s = .next t → t.config = s.config) ∧
  ∀ s t : State, step s = .next t → t.config = s.config

/-- Driven as R5 and R6 say, by wire bytes and host operations, the parser never rests on a complete or overrun buffer (R108
(c)): every step keeps it so. That ENCODE_MSG of a message outside the domain of R153 runs is the model's choice (log 18). -/
def Obligations.HostDrivenStepKeepsTheParserAtRest : Prop :=
  ∀ s t : State, s.HostDriven → s.buf.wf = true → s.atRest = true → step s = .next t →
    t.HostDriven ∧ t.buf.wf = true ∧ t.atRest = true

/-- From R215 and R223: driven so, no step faults or is refused, in any state. That ENCODE_MSG of a message outside the domain of R153 runs
and is not refused is the model's choice (log 18). -/
def Obligations.HostDrivenMachineNeverStops : Prop :=
  ∀ s : State, s.HostDriven → ∃ t, step s = .next t

/-- R33, the spec's decision D9: what `buf` holds at and above `count` influences nothing: two states that differ there only
answer alike, and their next states again differ there only. An instruction whose operands are not well-formed answers by the
model's choice (log 18). -/
def Obligations.StaleBytesAreUnobservable : Prop :=
  ∀ (i : Instr) (s t s' : State), s.buf.wf = true → t.buf.wf = true → s.sameBelow t → exec i s = .next s' →
    ∃ t', exec i t = .next t' ∧ s'.sameBelow t'
end

