-- ==== Sys2Proof/Laws/Operands.lean ====
section
/-! SUPPORT. The laws of the operand forms: little-endian fields, stuffing, and the running checksum. -/

namespace Sys2Proof.Machine

@[simp] theorem u16le_toNat (lo hi : Byte) : (u16le lo hi).toNat = lo.toNat + hi.toNat * 256 := by
  have h1 := lo.isLt
  have h2 := hi.isLt
  simp only [u16le, BitVec.toNat_ofNat]
  omega

@[simp] theorem loByte_toNat (v : Half) : (loByte v).toNat = v.toNat % 256 := by
  simp only [loByte, BitVec.toNat_ofNat]
  omega

@[simp] theorem hiByte_toNat (v : Half) : (hiByte v).toNat = v.toNat / 256 := by
  have h := v.isLt
  simp only [hiByte, BitVec.toNat_ofNat]
  omega

@[simp] theorem u16le_loByte_hiByte (v : Half) : u16le (loByte v) (hiByte v) = v := by
  apply BitVec.eq_of_toNat_eq
  rw [u16le_toNat, loByte_toNat, hiByte_toNat]
  omega

@[simp] theorem loByte_u16le (lo hi : Byte) : loByte (u16le lo hi) = lo := by
  have h := lo.isLt
  apply BitVec.eq_of_toNat_eq
  rw [loByte_toNat, u16le_toNat]
  omega

@[simp] theorem hiByte_u16le (lo hi : Byte) : hiByte (u16le lo hi) = hi := by
  have h := lo.isLt
  apply BitVec.eq_of_toNat_eq
  rw [hiByte_toNat, u16le_toNat]
  omega

/-- The packed pair says both bytes (R43). -/
theorem u16le_injective {a b a' b' : Byte} (h : u16le a b = u16le a' b') : a = a' ∧ b = b' :=
  ⟨by simpa using congrArg loByte h, by simpa using congrArg hiByte h⟩

@[simp] theorem halvesBytes_length (vs : List Half) : (halvesBytes vs).length = 2 * vs.length := by
  induction vs with
  | nil => rfl
  | cons v vs ih => simp only [halvesBytes, List.length_cons, ih]; omega

@[simp] theorem halvesOf_halvesBytes (vs : List Half) : halvesOf (halvesBytes vs) = vs := by
  induction vs with
  | nil => rfl
  | cons v vs ih => simp [halvesBytes, halvesOf, ih]

/-- `n` fields out of `2 * n` bytes, and back (R158, R159). -/
theorem halvesOf_of_length {n : Nat} {l : List Byte} (h : l.length = 2 * n) :
    (halvesOf l).length = n ∧ halvesBytes (halvesOf l) = l := by
  induction n generalizing l with
  | zero =>
    have : l = [] := List.length_eq_zero_iff.mp (by omega)
    subst this
    exact ⟨rfl, rfl⟩
  | succ n ih =>
    match l, h with
    | lo :: hi :: rest, h =>
      obtain ⟨h1, h2⟩ := ih (l := rest) (by simp at h; omega)
      simp [halvesOf, halvesBytes, h1, h2]

@[simp] theorem unstuffed_unstuffed (x : Byte) : unstuffed (unstuffed x) = x := by
  simp [unstuffed]

theorem stuffAll_append (xs ys : List Byte) : stuffAll (xs ++ ys) = stuffAll xs ++ stuffAll ys := by
  induction xs with
  | nil => rfl
  | cons x xs ih => simp [stuffAll, ih]

theorem Accumulator.addAll_append (k : Accumulator) (xs ys : List Byte) :
    k.addAll (xs ++ ys) = (k.addAll xs).addAll ys := by
  induction xs generalizing k with
  | nil => rfl
  | cons x xs ih => simp [Accumulator.addAll, ih]

/-- Two checksums of sequences that part at one byte and go on alike: the `a` registers differ by what they differed by there (R95). -/
theorem Accumulator.addAll_a_add (xs : List Byte) (k k' : Accumulator) (d : Byte) (h : k'.a = k.a + d) :
    (k'.addAll xs).a = (k.addAll xs).a + d := by
  induction xs generalizing k k' with
  | nil => exact h
  | cons x xs ih =>
    refine ih (k.add x) (k'.add x) ?_
    simp only [Accumulator.add, h]
    ac_rfl

end Sys2Proof.Machine
end

