-- ==== Sys2Proof/Laws/Catalog.lean ====
section
/-! SUPPORT. What the dispatch on the id gives under the constraints of table R9, and what the catalog's functions can answer. -/

namespace Sys2Proof.Machine

theorem extraLen_some {ks : List ExtraKind} {id : Byte} {n : Nat} (h : extraLen ks id = some n) :
    (⟨id, n⟩ : ExtraKind) ∈ ks := by
  induction ks with
  | nil => cases h
  | cons k ks ih =>
    unfold extraLen at h
    split at h
    · rename_i hk
      cases h
      subst hk
      exact List.mem_cons_self
    · exact List.mem_cons_of_mem _ (ih h)

theorem extraLen_none {ks : List ExtraKind} {id : Byte} : extraLen ks id = none ↔ id ∉ ks.map ExtraKind.id := by
  induction ks with
  | nil => simp [extraLen]
  | cons k ks ih =>
    by_cases hk : k.id = id
    · simp [extraLen, hk]
    · simp [extraLen, hk, ih, Ne.symm hk]

theorem extraLen_of_mem {ks : List ExtraKind} {k : ExtraKind} (hn : (ks.map ExtraKind.id).Nodup) (hk : k ∈ ks) :
    extraLen ks k.id = some k.len := by
  induction ks with
  | nil => cases hk
  | cons j ks ih =>
    simp only [List.map_cons, List.nodup_cons] at hn
    rcases List.mem_cons.mp hk with rfl | hk
    · simp [extraLen]
    · have hne : j.id ≠ k.id := fun he => hn.1 (he ▸ List.mem_map_of_mem hk)
      simp [extraLen, hne, ih hn.2 hk]

/-- An id is unknown exactly when the catalog holds it nowhere (R77, R154). -/
theorem kindOf_unknown_iff (c : Config) (id : Byte) : kindOf c id = .unknown ↔ id ∉ c.ids := by
  unfold kindOf Config.ids
  by_cases h1 : id = c.idElectrodeEnable
  · simp [h1]
  by_cases h2 : id = c.idBulkCapacitance
  · rw [h2]; split_ifs <;> simp_all
  by_cases h3 : id = c.idActiveCapacitance
  · rw [h3]; split_ifs <;> simp_all
  by_cases h4 : id = c.idAck
  · rw [h4]; split_ifs <;> simp_all
  by_cases h5 : id = c.idMotionCmd
  · rw [h5]; split_ifs <;> simp_all
  cases h : extraLen c.extraKinds id with
  | none => simp [h1, h2, h3, h4, h5]; simpa using extraLen_none.mp h
  | some n =>
    simp only [h1, h2, h3, h4, h5, if_false]
    have := List.mem_map_of_mem (f := ExtraKind.id) (extraLen_some h)
    simp only [reduceCtorEq, false_iff, not_not]
    exact List.mem_append_right _ this

@[simp] theorem kindOf_electrodeEnable (c : Config) : kindOf c c.idElectrodeEnable = .electrodeEnable := by
  simp [kindOf]

/-- Under R9 each id selects its own kind. -/
theorem kindOf_valid {c : Config} (h : c.Valid) :
    kindOf c c.idBulkCapacitance = .bulkCapacitance ∧ kindOf c c.idActiveCapacitance = .activeCapacitance ∧
      kindOf c c.idAck = .ack ∧ kindOf c c.idMotionCmd = .motionCmd ∧
      ∀ k ∈ c.extraKinds, kindOf c k.id = .extra k.len := by
  obtain ⟨hn, -⟩ := h
  simp only [Config.ids, List.cons_append, List.nil_append, List.nodup_cons, List.mem_cons, not_or] at hn
  obtain ⟨⟨a1, a2, a3, a4, a5⟩, ⟨b1, b2, b3, b4⟩, ⟨c1, c2, c3⟩, ⟨d1, d2⟩, e1, hx⟩ := hn
  refine ⟨?_, ?_, ?_, ?_, fun k hk => ?_⟩
  · simp [kindOf, Ne.symm a1]
  · simp [kindOf, Ne.symm a2, Ne.symm b1]
  · simp [kindOf, Ne.symm a3, Ne.symm b2, Ne.symm c1]
  · simp [kindOf, Ne.symm a4, Ne.symm b3, Ne.symm c2, Ne.symm d1]
  · have hm : k.id ∈ c.extraKinds.map ExtraKind.id := List.mem_map_of_mem hk
    have ne : ∀ x, x ∉ c.extraKinds.map ExtraKind.id → k.id ≠ x := fun x hx he => hx (he ▸ hm)
    simp [kindOf, ne _ a5, ne _ b4, ne _ c3, ne _ d2, ne _ e1, extraLen_of_mem hx hk]

/-- Only the bulk kind's probe looks at the payload (R151), and only at its second byte (R157). -/
theorem sizeProbe_of_not_bulk {c : Config} {id : Byte} (h : kindOf c id ≠ .bulkCapacitance) (p q : List Byte) :
    sizeProbe c id p = sizeProbe c id q ∧ ∃ n, sizeProbe c id p = .known n := by
  unfold sizeProbe
  cases hk : kindOf c id <;> simp_all

theorem sizeProbe_of_bulk {c : Config} {id : Byte} (h : kindOf c id = .bulkCapacitance) (p : List Byte) :
    sizeProbe c id p = if p.length < 2 then .unknown else .known (2 + 2 * (byteAt p 1).toNat) := by
  simp [sizeProbe, h]

/-- A payload at least as long as its probed length is decoded if the id is known (R152, R214). -/
theorem decodeMessage_of_fits {c : Config} {id : Byte} {p : List Byte} {n : Nat} (hp : sizeProbe c id p = .known n)
    (hn : n ≤ p.length) :
    (kindOf c id = .unknown ∧ decodeMessage c id p = .error (.unknownPacketId id)) ∨
      ∃ m, decodeMessage c id p = .ok m := by
  by_cases h : kindOf c id = .unknown
  · exact .inl ⟨h, by simp [decodeMessage, h]⟩
  · right
    have hl : ¬ p.length < n := by omega
    simp only [decodeMessage, h, hp, hl, if_false]
    cases hk : kindOf c id <;> simp_all [decodeKind]

/-- The only errors DECODE answers (R152). -/
theorem decodeMessage_error {c : Config} {id : Byte} {p : List Byte} {e : ParseError}
    (h : decodeMessage c id p = .error e) : e = .unknownPacketId id ∨ e = .deserializationError := by
  unfold decodeMessage at h
  split at h
  · cases h; exact .inl rfl
  · split at h
    · cases h; exact .inr rfl
    · split at h
      · cases h; exact .inr rfl
      · unfold decodeKind at h
        split at h <;> cases h
        exact .inl rfl

end Sys2Proof.Machine
end

