-- ==== Sys2Proof/Laws/Memory.lean ====
section
/-! SUPPORT. The laws of `buf`: a read after a write, and the canonical form every write keeps. -/

namespace Sys2Proof.Machine

namespace Memory

theorem wfFrom_cons (lo k : Nat) (v : Byte) (m : Memory) :
    wfFrom lo ((k, v) :: m) = true ↔ lo ≤ k ∧ k < CAP ∧ v ≠ fill ∧ wfFrom (k + 1) m = true := by
  simp [wfFrom, and_assoc]

/-- A canonical list from a higher index on is canonical from a lower one on. -/
theorem wfFrom_of_le {lo lo' : Nat} {m : Memory} (hle : lo' ≤ lo) (h : wfFrom lo m = true) : wfFrom lo' m = true := by
  cases m with
  | nil => rfl
  | cons c rest =>
    obtain ⟨k, v⟩ := c
    rw [wfFrom_cons] at h ⊢
    exact ⟨by omega, h.2⟩

/-- An index below everything listed reads as the fill. -/
theorem read_of_lt {lo a : Nat} {m : Memory} (h : wfFrom lo m = true) (ha : a < lo) : read m a = fill := by
  induction m generalizing lo with
  | nil => rfl
  | cons c rest ih =>
    obtain ⟨k, v⟩ := c
    rw [wfFrom_cons] at h
    have hk : k ≠ a := by omega
    simp only [read, hk, if_false]
    exact ih h.2.2.2 (by omega)

/-- A read after a write, in canonical memory: the index written holds the byte, every other index what it held. -/
theorem read_write_from {lo a : Nat} {m : Memory} (h : wfFrom lo m = true) (v : Byte) (b : Nat) :
    read (write m a v) b = if a = b then v else read m b := by
  induction m generalizing lo with
  | nil =>
    by_cases hv : v = fill <;> by_cases hab : a = b <;> simp [write, read, hv, hab]
  | cons c rest ih =>
    obtain ⟨k, x⟩ := c
    rw [wfFrom_cons] at h
    obtain ⟨-, -, hx, hr⟩ := h
    have ih := ih hr
    by_cases h1 : a < k
    · by_cases hv : v = fill
      · by_cases hab : a = b
        · subst hab
          have : k ≠ a := by omega
          simp [write, read, h1, hv, this, read_of_lt hr (show a < k + 1 by omega)]
        · simp [write, h1, hv, hab]
      · by_cases hab : a = b
        · subst hab
          simp [write, read, h1, hv]
        · simp [write, read, h1, hv, hab]
    · by_cases h2 : a = k
      · subst h2
        by_cases hv : v = fill
        · by_cases hab : a = b
          · subst hab
            simp [write, hv, read_of_lt hr (Nat.lt_succ_self a)]
          · simp [write, read, hv, hab]
        · by_cases hab : a = b <;> simp [write, read, hv, hab]
      · by_cases hkb : k = b
        · subst hkb
          simp [write, read, h1, h2]
        · simp [write, read, h1, h2, hkb, ih]

theorem read_write_same {m : Memory} (h : wf m = true) (a : Nat) (v : Byte) : read (write m a v) a = v := by
  simpa using read_write_from (a := a) h v a

theorem read_write_other {m : Memory} (h : wf m = true) {a b : Nat} (v : Byte) (hab : a ≠ b) :
    read (write m a v) b = read m b := by
  simpa [hab] using read_write_from (a := a) h v b

theorem wfFrom_write {lo a : Nat} {m : Memory} (h : wfFrom lo m = true) (hlo : lo ≤ a) (ha : a < CAP) (v : Byte) :
    wfFrom lo (write m a v) = true := by
  induction m generalizing lo with
  | nil => by_cases hv : v = fill <;> simp [write, wfFrom, hv, hlo, ha]
  | cons c rest ih =>
    obtain ⟨k, x⟩ := c
    have h0 := h
    rw [wfFrom_cons] at h
    obtain ⟨hk, hk', hx, hr⟩ := h
    by_cases h1 : a < k
    · by_cases hv : v = fill
      · simpa [write, h1, hv] using h0
      · simp only [write, h1, hv, if_true, if_false, wfFrom_cons]
        exact ⟨hlo, ha, hv, by omega, hk', hx, hr⟩
    · by_cases h2 : a = k
      · subst h2
        by_cases hv : v = fill
        · simpa [write, hv] using wfFrom_of_le (by omega) hr
        · simp only [write, Nat.lt_irrefl, hv, if_true, if_false, wfFrom_cons]
          exact ⟨hk, ha, hv, hr⟩
      · simp only [write, h1, h2, if_false, wfFrom_cons]
        exact ⟨hk, hk', hx, ih hr (by omega)⟩

/-- Every store the block makes keeps the canonical form. -/
theorem wf_write {m : Memory} (h : wf m = true) {a : Nat} (ha : a < CAP) (v : Byte) : wf (write m a v) = true :=
  wfFrom_write h (Nat.zero_le a) ha v

theorem wf_nil : wf [] = true := rfl

@[simp] theorem length_readRun (m : Memory) (i n : Nat) : (readRun m i n).length = n := by
  induction n generalizing i with
  | zero => rfl
  | succ n ih => simp [readRun, ih]

/-- A run of reads is the reads, in ascending order. -/
theorem readRun_eq_map (m : Memory) (i n : Nat) : readRun m i n = (List.range n).map fun k => read m (i + k) := by
  induction n generalizing i with
  | zero => rfl
  | succ n ih =>
    rw [readRun, ih, List.range_succ_eq_map]
    simp [Nat.add_assoc, Nat.add_comm 1]

/-- Runs over indices where two memories agree are equal. -/
theorem readRun_congr {m m' : Memory} {i n : Nat} (h : ∀ k, i ≤ k → k < i + n → read m k = read m' k) :
    readRun m i n = readRun m' i n := by
  induction n generalizing i with
  | zero => rfl
  | succ n ih =>
    simp only [readRun]
    rw [h i (by omega) (by omega), ih fun k h1 h2 => h k (by omega) (by omega)]

/-- A run one longer is the run and the next byte. -/
theorem readRun_succ (m : Memory) (i n : Nat) : readRun m i (n + 1) = readRun m i n ++ [read m (i + n)] := by
  simp [readRun_eq_map, List.range_succ]

/-- A byte of a run is the cell it was read from. -/
theorem byteAt_readRun (m : Memory) {i n k : Nat} (h : k < n) : byteAt (readRun m i n) k = read m (i + k) := by
  simp [byteAt, readRun_eq_map, List.getD_eq_getElem?_getD, List.getElem?_range h]

end Memory

end Sys2Proof.Machine
end

