-- ==== Sys2Proof/Laws/State.lean ====
section
/-! SUPPORT. One lemma per field per update of State, so that no later proof unfolds a record update. -/

namespace Sys2Proof.Machine

@[simp] theorem setEscaping_config (s : State) : (setEscaping s).config = s.config := rfl
@[simp] theorem setEscaping_count (s : State) : (setEscaping s).count = s.count := rfl
@[simp] theorem setEscaping_escaping (s : State) : (setEscaping s).escaping = true := rfl
@[simp] theorem setEscaping_buf (s : State) : (setEscaping s).buf = s.buf := rfl
@[simp] theorem setEscaping_ck (s : State) : (setEscaping s).ck = s.ck := rfl
@[simp] theorem setEscaping_input (s : State) : (setEscaping s).input = s.input := rfl
@[simp] theorem setEscaping_output (s : State) : (setEscaping s).output = s.output := rfl
@[simp] theorem setEscaping_result (s : State) : (setEscaping s).result = s.result := rfl

@[simp] theorem clearEscaping_config (s : State) : (clearEscaping s).config = s.config := rfl
@[simp] theorem clearEscaping_count (s : State) : (clearEscaping s).count = s.count := rfl
@[simp] theorem clearEscaping_escaping (s : State) : (clearEscaping s).escaping = false := rfl
@[simp] theorem clearEscaping_buf (s : State) : (clearEscaping s).buf = s.buf := rfl
@[simp] theorem clearEscaping_ck (s : State) : (clearEscaping s).ck = s.ck := rfl
@[simp] theorem clearEscaping_input (s : State) : (clearEscaping s).input = s.input := rfl
@[simp] theorem clearEscaping_output (s : State) : (clearEscaping s).output = s.output := rfl
@[simp] theorem clearEscaping_result (s : State) : (clearEscaping s).result = s.result := rfl

@[simp] theorem rbClear_config (s : State) : (rbClear s).config = s.config := rfl
@[simp] theorem rbClear_count (s : State) : (rbClear s).count = 0 := rfl
@[simp] theorem rbClear_escaping (s : State) : (rbClear s).escaping = s.escaping := rfl
@[simp] theorem rbClear_buf (s : State) : (rbClear s).buf = s.buf := rfl
@[simp] theorem rbClear_ck (s : State) : (rbClear s).ck = s.ck := rfl
@[simp] theorem rbClear_input (s : State) : (rbClear s).input = s.input := rfl
@[simp] theorem rbClear_output (s : State) : (rbClear s).output = s.output := rfl
@[simp] theorem rbClear_result (s : State) : (rbClear s).result = s.result := rfl

@[simp] theorem fullReset_config (s : State) : (fullReset s).config = s.config := rfl
@[simp] theorem fullReset_count (s : State) : (fullReset s).count = 0 := rfl
@[simp] theorem fullReset_escaping (s : State) : (fullReset s).escaping = false := rfl
@[simp] theorem fullReset_buf (s : State) : (fullReset s).buf = s.buf := rfl
@[simp] theorem fullReset_ck (s : State) : (fullReset s).ck = s.ck := rfl
@[simp] theorem fullReset_input (s : State) : (fullReset s).input = s.input := rfl
@[simp] theorem fullReset_output (s : State) : (fullReset s).output = s.output := rfl
@[simp] theorem fullReset_result (s : State) : (fullReset s).result = s.result := rfl

@[simp] theorem answer_config (r : Result) (s : State) : (answer r s).config = s.config := rfl
@[simp] theorem answer_count (r : Result) (s : State) : (answer r s).count = s.count := rfl
@[simp] theorem answer_escaping (r : Result) (s : State) : (answer r s).escaping = s.escaping := rfl
@[simp] theorem answer_buf (r : Result) (s : State) : (answer r s).buf = s.buf := rfl
@[simp] theorem answer_ck (r : Result) (s : State) : (answer r s).ck = s.ck := rfl
@[simp] theorem answer_input (r : Result) (s : State) : (answer r s).input = s.input := rfl
@[simp] theorem answer_output (r : Result) (s : State) : (answer r s).output = s.output := rfl
@[simp] theorem answer_result (r : Result) (s : State) : (answer r s).result = r := rfl

@[simp] theorem emit_config (o : ParseOutcome) (s : State) : (emit o s).config = s.config := rfl
@[simp] theorem emit_count (o : ParseOutcome) (s : State) : (emit o s).count = s.count := rfl
@[simp] theorem emit_escaping (o : ParseOutcome) (s : State) : (emit o s).escaping = s.escaping := rfl
@[simp] theorem emit_buf (o : ParseOutcome) (s : State) : (emit o s).buf = s.buf := rfl
@[simp] theorem emit_ck (o : ParseOutcome) (s : State) : (emit o s).ck = s.ck := rfl
@[simp] theorem emit_input (o : ParseOutcome) (s : State) : (emit o s).input = s.input := rfl
@[simp] theorem emit_output (o : ParseOutcome) (s : State) : (emit o s).output = s.output := rfl
@[simp] theorem emit_result (o : ParseOutcome) (s : State) : (emit o s).result = .outcome o := rfl

@[simp] theorem raiseError_config (e : ParseError) (s : State) : (raiseError e s).config = s.config := rfl
@[simp] theorem raiseError_count (e : ParseError) (s : State) : (raiseError e s).count = 0 := rfl
@[simp] theorem raiseError_escaping (e : ParseError) (s : State) : (raiseError e s).escaping = false := rfl
@[simp] theorem raiseError_buf (e : ParseError) (s : State) : (raiseError e s).buf = s.buf := rfl
@[simp] theorem raiseError_ck (e : ParseError) (s : State) : (raiseError e s).ck = s.ck := rfl
@[simp] theorem raiseError_input (e : ParseError) (s : State) : (raiseError e s).input = s.input := rfl
@[simp] theorem raiseError_output (e : ParseError) (s : State) : (raiseError e s).output = s.output := rfl
@[simp] theorem raiseError_result (e : ParseError) (s : State) : (raiseError e s).result = .outcome (.err e) := rfl

end Sys2Proof.Machine
end

