-- ==== Sys2Proof/Laws/Ops.lean ====
section
/-! SUPPORT. What each shared operation can do, said once. -/

namespace Sys2Proof.Machine

/-- A push that succeeds (R100): the byte at index `count`, the count one higher, nothing else. -/
theorem rbPush_ok {v : Byte} {s t : State} (h : rbPush v s = .ok t) :
    s.count.val < CAP ∧ t.count.val = s.count.val + 1 ∧ t.buf = s.buf.write s.count.val v ∧
      t.escaping = s.escaping ∧ t.result = s.result ∧ sameOutside s t := by
  unfold rbPush at h
  split at h
  · cases h
    exact ⟨‹_›, rfl, rfl, rfl, rfl, rfl, rfl, rfl, rfl⟩
  · cases h

/-- A push fails exactly at a full buffer, and only with SizeOverrun (R100). -/
theorem rbPush_error {v : Byte} {s : State} {e : ParseError} (h : rbPush v s = .error e) :
    s.count.val = CAP ∧ e = .sizeOverrun := by
  unfold rbPush at h
  split at h
  · cases h
  · have := s.count.isLt
    cases h
    exact ⟨by omega, rfl⟩

theorem rbPush_of_lt (v : Byte) {s : State} (h : s.count.val < CAP) : ∃ t, rbPush v s = .ok t := by
  simp [rbPush, h]

theorem rbPush_of_full (v : Byte) {s : State} (h : s.count.val = CAP) : rbPush v s = .error .sizeOverrun := by
  simp [rbPush, h]

/-- A push that succeeds, seen through reads of one byte. -/
theorem rbPush_read {v : Byte} {s t : State} (hw : s.buf.wf = true) (h : rbPush v s = .ok t) (k : Nat) :
    t.buf.read k = if s.count.val = k then v else s.buf.read k := by
  rw [(rbPush_ok h).2.2.1]
  exact Memory.read_write_from hw v k

theorem rbPush_wf {v : Byte} {s t : State} (hw : s.buf.wf = true) (h : rbPush v s = .ok t) : t.buf.wf = true := by
  obtain ⟨hc, -, hb, -⟩ := rbPush_ok h
  rw [hb]
  exact Memory.wf_write hw hc v

/-- A complete buffer holds an id, its length is known, and `count` is that length plus three (R106). -/
theorem rbIsComplete_iff (s : State) :
    rbIsComplete s = true ↔
      1 ≤ s.count.val ∧ ∃ n, sizeProbe s.config (idByte s) (rbPayload s) = .known n ∧ s.count.val = n + 3 := by
  unfold rbIsComplete rbId
  by_cases h : 1 ≤ s.count.val
  · simp only [h, if_true, true_and]
    cases hp : sizeProbe s.config (idByte s) (rbPayload s) with
    | unknown => simp
    | known n => simp [overhead, idLen, trailerLen]
  · simp [h]

/-- A completed frame (R126 to R128): the clean state, and an outcome that is a message or an error. -/
theorem completeFrame_cases (s : State) :
    ∃ o, completeFrame s = emit o (fullReset s) ∧
      ((rbTrailer s = rbCalcChecksum s ∧
          ((∃ m, decodeMessage s.config (idByte s) (rbPayload s) = .ok m ∧ o = .msg m) ∨
            ∃ e, decodeMessage s.config (idByte s) (rbPayload s) = .error e ∧ o = .err e)) ∨
        (rbTrailer s ≠ rbCalcChecksum s ∧
          o = .err (.checksumError (u16le (rbTrailer s).1 (rbTrailer s).2)
            (u16le (rbCalcChecksum s).1 (rbCalcChecksum s).2)))) := by
  unfold completeFrame
  by_cases h : rbTrailer s = rbCalcChecksum s
  · cases hd : decodeMessage s.config (idByte s) (rbPayload s) with
    | ok m => exact ⟨.msg m, by simp [h], .inl ⟨h, .inl ⟨m, rfl, rfl⟩⟩⟩
    | error e => exact ⟨.err e, by simp [h, raiseError], .inl ⟨h, .inr ⟨e, rfl, rfl⟩⟩⟩
  · exact ⟨_, by simp only [h, if_false]; rfl, .inr ⟨h, rfl⟩⟩

/-- All a store can do (R124 to R128): the silent overflow, the byte kept in an incomplete frame, or the completed frame. -/
theorem storeByte_cases (v : Byte) (s : State) :
    (s.count.val = CAP ∧ storeByte v s = emit .none (fullReset s)) ∨
    (∃ t, rbPush v s = .ok t ∧ rbIsComplete t = false ∧ storeByte v s = emit .none t) ∨
    (∃ t, rbPush v s = .ok t ∧ rbIsComplete t = true ∧ storeByte v s = completeFrame t) := by
  unfold storeByte
  cases h : rbPush v s with
  | error e => exact .inl ⟨(rbPush_error h).1, rfl⟩
  | ok t =>
    cases hc : rbIsComplete t
    · exact .inr (.inl ⟨t, rfl, hc, by simp [hc]⟩)
    · exact .inr (.inr ⟨t, rfl, hc, by simp [hc]⟩)

theorem storeByte_of_incomplete {v : Byte} {s t : State} (h : rbPush v s = .ok t) (hc : rbIsComplete t = false) :
    storeByte v s = emit .none t := by
  simp [storeByte, h, hc]

theorem storeByte_of_complete {v : Byte} {s t : State} (h : rbPush v s = .ok t) (hc : rbIsComplete t = true) :
    storeByte v s = completeFrame t := by
  simp [storeByte, h, hc]

/-- The push does not look at `escaping`. -/
theorem rbPush_clearEscaping {v : Byte} {s t : State} (h : rbPush v s = .ok t) :
    rbPush v (clearEscaping s) = .ok (clearEscaping t) := by
  unfold rbPush at h ⊢
  split_ifs at h with hc
  cases h
  rw [dif_pos (show (clearEscaping s).count.val < CAP from hc)]
  rfl

/-- The views of the buffer do not look at `escaping`. -/
theorem views_clearEscaping (s : State) :
    rbIsComplete (clearEscaping s) = rbIsComplete s ∧ rbTrailer (clearEscaping s) = rbTrailer s ∧
      rbCalcChecksum (clearEscaping s) = rbCalcChecksum s ∧ rbPayload (clearEscaping s) = rbPayload s :=
  ⟨rfl, rfl, rfl, rfl⟩

theorem clearEscaping_of {s : State} (h : s.escaping = false) : clearEscaping s = s := by
  cases s
  simp_all [clearEscaping]

@[simp] theorem rbPayload_length (s : State) : (rbPayload s).length = s.count.val - 3 := by
  unfold rbPayload
  split_ifs
  · exact Memory.length_readRun _ _ _
  · simp
    omega

/-- A completed frame's outcome does not depend on the return value that stood before. -/
theorem completeFrame_answer (r : Result) (t : State) : completeFrame (answer r t) = completeFrame t := by
  unfold completeFrame
  have h1 : rbTrailer (answer r t) = rbTrailer t := rfl
  have h2 : rbCalcChecksum (answer r t) = rbCalcChecksum t := rfl
  have h3 : decodeMessage (answer r t).config (idByte (answer r t)) (rbPayload (answer r t)) =
      decodeMessage t.config (idByte t) (rbPayload t) := rfl
  simp only [h1, h2, h3]
  split_ifs
  · split <;> rfl
  · rfl

/-- A store replaces the return value. -/
theorem storeByte_answer (v : Byte) (r : Result) (s : State) : storeByte v (answer r s) = storeByte v s := by
  rcases storeByte_cases v s with ⟨hc, h⟩ | ⟨t, ht, hc, h⟩ | ⟨t, ht, hc, h⟩
  · rw [h]
    simp [storeByte, rbPush_of_full v (s := answer r s) hc]
    rfl
  all_goals
    have hp : rbPush v (answer r s) = .ok (answer r t) := by
      unfold rbPush at ht ⊢
      split_ifs at ht with h0
      cases ht
      rw [dif_pos (show (answer r s).count.val < CAP from h0)]
      rfl
    have hc' : rbIsComplete (answer r t) = rbIsComplete t := rfl
    rw [h]
    simp only [storeByte, hp, hc', hc]
  · rfl
  · exact completeFrame_answer r t

/-- The frame of a store: the configuration, the accumulator and both streams stay. -/
theorem storeByte_sameOutside (v : Byte) (s : State) : sameOutside s (storeByte v s) := by
  rcases storeByte_cases v s with ⟨-, h⟩ | ⟨t, hp, -, h⟩ | ⟨t, hp, -, h⟩
  · rw [h]; exact ⟨rfl, rfl, rfl, rfl⟩
  · rw [h]; exact (rbPush_ok hp).2.2.2.2.2
  · obtain ⟨o, ho, -⟩ := completeFrame_cases t
    rw [h, ho]; exact (rbPush_ok hp).2.2.2.2.2

/-- After a store `escaping` is clear if it was clear before. -/
theorem storeByte_escaping {v : Byte} {s : State} (hs : s.escaping = false) : (storeByte v s).escaping = false := by
  rcases storeByte_cases v s with ⟨-, h⟩ | ⟨t, hp, -, h⟩ | ⟨t, hp, -, h⟩
  · rw [h]; rfl
  · rw [h]; simpa [hs] using (rbPush_ok hp).2.2.2.1
  · obtain ⟨o, ho, -⟩ := completeFrame_cases t
    rw [h, ho]; rfl

theorem storeByte_wf {v : Byte} {s : State} (hw : s.buf.wf = true) : (storeByte v s).buf.wf = true := by
  rcases storeByte_cases v s with ⟨-, h⟩ | ⟨t, hp, -, h⟩ | ⟨t, hp, -, h⟩
  · rw [h]; exact hw
  · have := rbPush_wf hw hp
    rw [h]; exact this
  · obtain ⟨o, ho, -⟩ := completeFrame_cases t
    have := rbPush_wf hw hp
    rw [h, ho]; exact this

theorem storeAll_append (xs ys : List Byte) (s : State) : storeAll (xs ++ ys) s = storeAll ys (storeAll xs s) := by
  induction xs generalizing s with
  | nil => rfl
  | cons x xs ih => simp [storeAll, ih]

theorem storeAll_snoc (xs : List Byte) (v : Byte) (s : State) : storeAll (xs ++ [v]) s = storeByte v (storeAll xs s) := by
  rw [storeAll_append]
  rfl

theorem storeAll_escaping {xs : List Byte} {s : State} (hs : s.escaping = false) : (storeAll xs s).escaping = false := by
  induction xs generalizing s with
  | nil => exact hs
  | cons x xs ih => exact ih (storeByte_escaping hs)

theorem storeAll_answer {xs : List Byte} (hx : xs ≠ []) (r : Result) (s : State) :
    storeAll xs (answer r s) = storeAll xs s := by
  cases xs with
  | nil => exact absurd rfl hx
  | cons x xs => simp [storeAll, storeByte_answer]

theorem storeAll_sameOutside (vs : List Byte) (s : State) : sameOutside s (storeAll vs s) := by
  induction vs generalizing s with
  | nil => exact ⟨rfl, rfl, rfl, rfl⟩
  | cons v vs ih =>
    obtain ⟨h1, h2, h3, h4⟩ := storeByte_sameOutside v s
    obtain ⟨g1, g2, g3, g4⟩ := ih (storeByte v s)
    exact ⟨g1.trans h1, g2.trans h2, g3.trans h3, g4.trans h4⟩

theorem storeAll_wf {vs : List Byte} {s : State} (hw : s.buf.wf = true) : (storeAll vs s).buf.wf = true := by
  induction vs generalizing s with
  | nil => exact hw
  | cons v vs ih => exact ih (storeByte_wf hw)

theorem receiveFrame_sameOutside (vs : List Byte) (s : State) : sameOutside s (receiveFrame vs s) :=
  storeAll_sameOutside vs (fullReset s)

/-- All a fetch that gives an instruction can do: one request leaves the front of the input, and nothing else changes. -/
theorem fetch_instr {s t : State} {i : Instr} (h : fetch s = .instr i t) : ∃ rest, t = { s with input := rest } := by
  unfold fetch at h
  split at h
  · cases h
  · cases h; exact ⟨_, rfl⟩
  · split at h
    · cases h
    · cases h; exact ⟨_, rfl⟩
  · split at h
    · cases h; exact ⟨_, rfl⟩
    · cases h

/-- All a transmission can do (R190, R194): the bytes appended and returned, or the refusal reported. -/
theorem transmit_sameParser (r : Except EncodeRefusal (List Byte)) (s : State) :
    sameParser s (transmit r s) ∧ (transmit r s).ck = s.ck := by
  cases r <;> exact ⟨⟨rfl, rfl, rfl, rfl, rfl⟩, rfl⟩

end Sys2Proof.Machine
end

