-- ==== Sys2Proof/Laws/Exec.lean ====
section
/-! SUPPORT. One equation for each instruction's meaning in terms of the shared operations, so that a proof about an instruction starts
from these and unfolds no meaning. -/

namespace Sys2Proof.Machine

theorem exec_unstuff (d : Byte) (s : State) : exec (.unstuff d) s = .next (storeByte (unstuffed d) (clearEscaping s)) := rfl

theorem exec_esc (s : State) : exec .esc s = .next (emit .none (setEscaping s)) := rfl

theorem exec_flag (s : State) : exec .flag s = .next (emit .none (fullReset s)) := rfl

theorem exec_data (d : Byte) (s : State) : exec (.data d) s = .next (storeByte d s) := rfl

/-- FEED by its three tests (R120 steps 1 to 3). -/
theorem exec_feed (b : Byte) (s : State) :
    exec (.feed b) s = .next (
      if s.escaping then storeByte (unstuffed b) (clearEscaping s)
      else if b = escByte then emit .none (setEscaping s)
      else if b = flagByte then emit .none (fullReset s)
      else storeByte b s) := by
  simp only [exec, execFeed, execUnstuff, execEsc, execFlag, execData]
  split_ifs <;> rfl

/-- FEED by its three outcomes: an escape marker taken, a flag taken, or a byte stored with `escaping` clear (R120). -/
theorem feed_cases (b : Byte) (s : State) :
    (s.escaping = false ∧ b = 0x7D ∧ exec (.feed b) s = .next (emit .none (setEscaping s))) ∨
    (s.escaping = false ∧ b = 0x7E ∧ exec (.feed b) s = .next (emit .none (fullReset s))) ∨
    ∃ v, ((s.escaping = true ∧ v = b ^^^ 0x20) ∨ (s.escaping = false ∧ b ≠ 0x7D ∧ b ≠ 0x7E ∧ v = b)) ∧
      exec (.feed b) s = .next (storeByte v (clearEscaping s)) := by
  rw [exec_feed]
  cases h : s.escaping
  · by_cases h1 : b = 0x7D
    · exact .inl ⟨rfl, h1, by simp [h1, escByte]⟩
    · by_cases h2 : b = 0x7E
      · exact .inr (.inl ⟨rfl, h2, by simp [h2, escByte, flagByte]⟩)
      · refine .inr (.inr ⟨b, .inr ⟨rfl, h1, h2, rfl⟩, ?_⟩)
        rw [clearEscaping_of h]
        simp only [Bool.false_eq_true, if_false, show ¬ b = escByte from h1, show ¬ b = flagByte from h2]
  · exact .inr (.inr ⟨b ^^^ 0x20, .inl ⟨rfl, rfl⟩, rfl⟩)

theorem exec_reset (s : State) : exec .reset s = .next (answer .nothing (fullReset s)) := rfl

theorem exec_fullReset (s : State) : exec .fullReset s = .next (answer .nothing (fullReset s)) := rfl

theorem exec_electrodeEnable (mask : List Byte) (ckA ckB : Byte) (s : State) :
    exec (.electrodeEnable mask ckA ckB) s = .next (receiveFrame (s.config.idElectrodeEnable :: mask ++ [ckA, ckB]) s) := rfl

theorem exec_bulkCapacitance (startIndex cnt : Byte) (values : List Half) (ckA ckB : Byte) (s : State) :
    exec (.bulkCapacitance startIndex cnt values ckA ckB) s =
      .next (receiveFrame (s.config.idBulkCapacitance :: startIndex :: cnt :: halvesBytes values ++ [ckA, ckB]) s) := rfl

theorem exec_activeCapacitance (baseline measurement : Half) (ckA ckB : Byte) (s : State) :
    exec (.activeCapacitance baseline measurement ckA ckB) s =
      .next (receiveFrame
        (s.config.idActiveCapacitance :: halfBytes baseline ++ halfBytes measurement ++ [ckA, ckB]) s) := rfl

theorem exec_ack (d : Option Byte) (ckA ckB : Byte) (s : State) :
    exec (.ack d ckA ckB) s = .next (receiveFrame (s.config.idAck :: d.toList ++ [ckA, ckB]) s) := rfl

theorem exec_motionCmd (steps period : Half) (ckA ckB : Byte) (s : State) :
    exec (.motionCmd steps period ckA ckB) s =
      .next (receiveFrame (s.config.idMotionCmd :: halfBytes steps ++ halfBytes period ++ [ckA, ckB]) s) := rfl

theorem exec_extra (id : Byte) (bytes : List Byte) (ckA ckB : Byte) (s : State) :
    exec (.extra id bytes ckA ckB) s = .next (receiveFrame (id :: bytes ++ [ckA, ckB]) s) := rfl

theorem exec_unknown (id ckA ckB : Byte) (s : State) :
    exec (.unknown id ckA ckB) s = .next (receiveFrame [id, ckA, ckB] s) := rfl

theorem exec_encode (id : Byte) (payload : List Byte) (s : State) :
    exec (.encode id payload) s = .next (transmit (encodeFrame s.config id payload) s) := rfl

theorem exec_encodeMsg (m : Message) (s : State) :
    exec (.encodeMsg m) s = .next (transmit (encodeMessageFrame s.config m) s) := rfl

theorem exec_stuff (x : Byte) (s : State) : exec (.stuff x) s = .next (answer (.bytes (stuffByte x)) s) := rfl

theorem exec_ckNew (s : State) : exec .ckNew s = .next (answer .nothing { s with ck := Accumulator.new }) := rfl

theorem exec_ckAdd (x : Byte) (s : State) : exec (.ckAdd x) s = .next (answer .nothing { s with ck := s.ck.add x }) := rfl

theorem exec_ckGet (s : State) : exec .ckGet s = .next (answer (.pair s.ck.a s.ck.b) s) := rfl

/-- RB_PUSH by its two cases (R100). -/
theorem exec_rbPush (v : Byte) (s : State) :
    (∃ t, rbPush v s = .ok t ∧ exec (.rbPush v) s = .next (answer .pushOk t)) ∨
      (s.count.val = CAP ∧ exec (.rbPush v) s = .next (answer (.pushFail .sizeOverrun) s)) := by
  cases h : rbPush v s with
  | ok t => exact .inl ⟨t, rfl, by simp [exec, execRbPush, h]⟩
  | error e =>
    obtain ⟨hc, rfl⟩ := rbPush_error h
    exact .inr ⟨hc, by simp [exec, execRbPush, h]⟩

theorem exec_rbClear (s : State) : exec .rbClear s = .next (answer .nothing (rbClear s)) := rfl

theorem exec_rbId (s : State) : exec .rbId s = .next (answer (.idView (rbId s)) s) := rfl

theorem exec_rbPayload (s : State) : exec .rbPayload s = .next (answer (.bytes (rbPayload s)) s) := rfl

/-- RB_TRAILER by its precondition (R104). -/
theorem exec_rbTrailer (s : State) :
    exec .rbTrailer s =
      if 3 ≤ s.count.val then .next (answer (.pair (rbTrailer s).1 (rbTrailer s).2) s) else .refused .trailerUndefined := rfl

/-- RB_CALC_CHECKSUM by its precondition (R105). -/
theorem exec_rbCalcChecksum (s : State) :
    exec .rbCalcChecksum s =
      if 3 ≤ s.count.val then .next (answer (.pair (rbCalcChecksum s).1 (rbCalcChecksum s).2) s)
      else .refused .calcChecksumUndefined := rfl

theorem exec_rbIsComplete (s : State) : exec .rbIsComplete s = .next (answer (.complete (rbIsComplete s)) s) := rfl

theorem exec_sizeProbe (id : Byte) (p : List Byte) (s : State) :
    exec (.sizeProbe id p) s = .next (answer (.probe (sizeProbe s.config id p)) s) := rfl

/-- DECODE by the catalog's answer (R152). -/
theorem exec_decode (id : Byte) (p : List Byte) (s : State) :
    exec (.decode id p) s = .next (answer
      (match decodeMessage s.config id p with
        | .ok m => .decodeOk m
        | .error e => .decodeErr e) s) := by
  simp only [exec, execDecode]
  cases decodeMessage s.config id p <;> rfl

/-- CAT_ENCODE by the catalog's answer (R155). -/
theorem exec_catEncode (m : Message) (s : State) :
    exec (.catEncode m) s = .next (answer
      (match encodeMessage s.config m with
        | .ok (id, payload) => .encoded id payload
        | .error r => .refused r) s) := by
  simp only [exec, execCatEncode]
  cases encodeMessage s.config m <;> rfl

/-- A wire byte standing next in the input is one FEED (R81). -/
theorem step_wireByte {s : State} {b : Byte} {rest : List Request} (h : s.input = .wireByte b :: rest) :
    step s = exec (.feed b) { s with input := rest } := by
  simp only [step, fetch, h, decodeSymbol]
  simp only [exec, execFeed]
  split_ifs <;> rfl

theorem step_call {s : State} {i : Instr} {rest : List Request} (h : s.input = .call i :: rest) (hf : i.format = .op) :
    step s = exec i { s with input := rest } := by
  simp [step, fetch, h, hf]

theorem step_idle {s : State} (h : s.input = []) : step s = .next (answer .nothing s) := by
  simp [step, fetch, h]

end Sys2Proof.Machine
end

