-- ==== Sys2Proof/Laws/Feed.lean ====
section
/-! SUPPORT. Streams of bytes: FEED along a list, FEED of stuffed bytes, and a run of the machine step by step. -/

namespace Sys2Proof.Machine

theorem run_succ (M : Host.Core) (n : Nat) (s : M.State) :
    M.run (n + 1) s = match M.step s with
      | .next s' => M.run n s'
      | .fault r => .fault r
      | .refused r => .refused r := rfl

/-- One step off the front of a run. -/
theorem run_of_step {s t : State} (n : Nat) (h : step s = .next t) :
    Host.Core.run Sys2Proof.core (n + 1) s = Host.Core.run Sys2Proof.core n t := by
  refine (run_succ Sys2Proof.core n s).trans ?_
  have h' : Sys2Proof.core.step s = .next t := h
  rw [h']

theorem feedAll_append (xs ys : List Byte) (s : State) :
    feedAll (xs ++ ys) s =
      ((feedAll xs s).1 ++ (feedAll ys (feedAll xs s).2).1, (feedAll ys (feedAll xs s).2).2) := by
  induction xs generalizing s with
  | nil => rfl
  | cons x xs ih =>
    simp only [List.cons_append, feedAll]
    rw [exec_feed]
    simp [ih]

theorem feed_flag {s : State} (h : s.escaping = false) : exec (.feed flagByte) s = .next (emit .none (fullReset s)) := by
  rw [exec_feed]
  simp [h, flagByte, escByte]

theorem feed_plain {x : Byte} {s : State} (h : s.escaping = false) (hx : isControl x = false) :
    exec (.feed x) s = .next (storeByte x s) := by
  rw [exec_feed]
  simp only [isControl, Bool.or_eq_false_iff, beq_eq_false_iff_ne] at hx
  simp only [h, Bool.false_eq_true, if_false, show ¬ x = escByte from hx.1, show ¬ x = flagByte from hx.2]

/-- The stuffed form of one byte, fed with `escaping` clear, is one store of that byte (R121, R191). -/
theorem feedAll_stuffByte {x : Byte} {s : State} (h : s.escaping = false) :
    feedAll (stuffByte x) s =
      (List.replicate ((stuffByte x).length - 1) (.outcome .none) ++ [(storeByte x s).result], storeByte x s) := by
  unfold stuffByte
  by_cases hx : isControl x = true
  · have h1 : exec (.feed escByte) s = .next (emit .none (setEscaping s)) := by
      rw [exec_feed]
      simp [h]
    have h2 : exec (.feed (unstuffed x)) (emit .none (setEscaping s)) = .next (storeByte x s) := by
      rw [exec_feed]
      simp only [emit_escaping, setEscaping_escaping, if_true, unstuffed_unstuffed]
      have he : clearEscaping (emit .none (setEscaping s)) = answer (.outcome .none) (clearEscaping s) := rfl
      rw [he, storeByte_answer, clearEscaping_of h]
    simp only [hx, if_true, feedAll, h1, h2]
    rfl
  · simp only [Bool.not_eq_true] at hx
    simp [hx, feedAll, feed_plain h hx]

/-- The stuffed form of a byte sequence, fed with `escaping` clear, stores the bytes one after the other. -/
theorem feedAll_stuffAll_state (xs : List Byte) {s : State} (h : s.escaping = false) :
    (feedAll (stuffAll xs) s).2 = storeAll xs s := by
  induction xs generalizing s with
  | nil => rfl
  | cons x xs ih =>
    rw [stuffAll, feedAll_append, feedAll_stuffByte h]
    exact ih (storeByte_escaping h)

/-- The outcomes along it are `None` as long as every store's is. -/
theorem feedAll_stuffAll_outcomes (xs : List Byte) {s : State} (h : s.escaping = false)
    (hn : ∀ j, j < xs.length → (storeAll (xs.take (j + 1)) s).result = .outcome .none) :
    (feedAll (stuffAll xs) s).1 = List.replicate (stuffAll xs).length (.outcome .none) := by
  induction xs generalizing s with
  | nil => rfl
  | cons x xs ih =>
    have h0 := hn 0 (by simp)
    simp [storeAll] at h0
    rw [stuffAll, feedAll_append, feedAll_stuffByte h, h0]
    simp only
    rw [ih (storeByte_escaping h) (fun j hj => by simpa [storeAll] using hn (j + 1) (by simpa using hj))]
    have hl : (stuffByte x).length ≠ 0 := by unfold stuffByte; split_ifs <;> simp
    rw [← List.replicate_succ', ← List.replicate_add]
    congr 1
    simp
    omega

end Sys2Proof.Machine
end

