-- ==== Sys2Proof/Laws/PerInstr.lean ====
section
/-! SUPPORT. One fact about every instruction as syntax: the encoder reads its row's group as table R82 does. -/

namespace Sys2Proof.Laws.EncodeLevel

/-- A SYMBOL is one byte of the stream, a FRAME row an unescaped frame of at least three bytes, an OP row has no encoding. -/
def Statement (i : Instr) : Prop :=
  ∀ c : Config,
    match i.format with
    | .symbol => ∃ e b, Sys2Proof.encode c i = some (.symbol e, [b])
    | .frame => ∃ bytes, Sys2Proof.encode c i = some (.frame, bytes) ∧ 3 ≤ bytes.length
    | .op => Sys2Proof.encode c i = none

theorem unstuff (d : Byte) : Statement (.unstuff d) := fun _ => ⟨_, _, rfl⟩

theorem esc : Statement (.esc) := fun _ => ⟨_, _, rfl⟩

theorem flag : Statement (.flag) := fun _ => ⟨_, _, rfl⟩

theorem data (d : Byte) : Statement (.data d) := fun _ => ⟨_, _, rfl⟩

theorem electrodeEnable (mask : List Byte) (ckA ckB : Byte) :
    Statement (.electrodeEnable mask ckA ckB) :=
  fun _ => ⟨_, rfl, by simp⟩

theorem bulkCapacitance (startIndex cnt : Byte) (values : List Half) (ckA ckB : Byte) :
    Statement (.bulkCapacitance startIndex cnt values ckA ckB) :=
  fun _ => ⟨_, rfl, by simp⟩

theorem activeCapacitance (baseline measurement : Half) (ckA ckB : Byte) :
    Statement (.activeCapacitance baseline measurement ckA ckB) :=
  fun _ => ⟨_, rfl, by simp [Machine.halfBytes]⟩

theorem ack (d : Option Byte) (ckA ckB : Byte) : Statement (.ack d ckA ckB) := fun _ => ⟨_, rfl, by simp⟩

theorem motionCmd (steps period : Half) (ckA ckB : Byte) :
    Statement (.motionCmd steps period ckA ckB) :=
  fun _ => ⟨_, rfl, by simp [Machine.halfBytes]⟩

theorem extra (id : Byte) (bytes : List Byte) (ckA ckB : Byte) :
    Statement (.extra id bytes ckA ckB) :=
  fun _ => ⟨_, rfl, by simp⟩

theorem unknown (id ckA ckB : Byte) : Statement (.unknown id ckA ckB) := fun _ => ⟨_, rfl, by simp⟩

theorem feed (b : Byte) : Statement (.feed b) := fun _ => rfl

theorem reset : Statement (.reset) := fun _ => rfl

theorem fullReset : Statement (.fullReset) := fun _ => rfl

theorem encode (id : Byte) (payload : List Byte) : Statement (.encode id payload) := fun _ => rfl

theorem encodeMsg (m : Message) : Statement (.encodeMsg m) := fun _ => rfl

theorem stuff (x : Byte) : Statement (.stuff x) := fun _ => rfl

theorem ckNew : Statement (.ckNew) := fun _ => rfl

theorem ckAdd (x : Byte) : Statement (.ckAdd x) := fun _ => rfl

theorem ckGet : Statement (.ckGet) := fun _ => rfl

theorem rbPush (v : Byte) : Statement (.rbPush v) := fun _ => rfl

theorem rbClear : Statement (.rbClear) := fun _ => rfl

theorem rbId : Statement (.rbId) := fun _ => rfl

theorem rbPayload : Statement (.rbPayload) := fun _ => rfl

theorem rbTrailer : Statement (.rbTrailer) := fun _ => rfl

theorem rbCalcChecksum : Statement (.rbCalcChecksum) := fun _ => rfl

theorem rbIsComplete : Statement (.rbIsComplete) := fun _ => rfl

theorem sizeProbe (id : Byte) (p : List Byte) : Statement (.sizeProbe id p) := fun _ => rfl

theorem decode (id : Byte) (p : List Byte) : Statement (.decode id p) := fun _ => rfl

theorem catEncode (m : Message) : Statement (.catEncode m) := fun _ => rfl

end Sys2Proof.Laws.EncodeLevel
end

