-- ==== Sys2Proof/Laws/Receive.lean ====
section
/-! SUPPORT. What the buffer holds while the bytes of one frame are stored from an empty buffer, up to the store that completes it. -/

namespace Sys2Proof.Machine

/-- `t` is `s` with exactly the bytes of `l` stored from index 0 on. -/
structure Holding (s : State) (l : List Byte) (t : State) : Prop where
  count : t.count.val = l.length
  wf : t.buf.wf = true
  escaping : t.escaping = s.escaping
  outside : sameOutside s t
  read : ∀ k, t.buf.read k = if k < l.length then byteAt l k else s.buf.read k

theorem Holding.nil {s : State} (hc : s.count.val = 0) (hw : s.buf.wf = true) : Holding s [] s :=
  ⟨hc, hw, rfl, ⟨rfl, rfl, rfl, rfl⟩, fun k => by simp⟩

theorem Holding.emit {s t : State} {l : List Byte} (o : ParseOutcome) (h : Holding s l t) :
    Holding s l (emit o t) :=
  ⟨h.count, h.wf, h.escaping, h.outside, h.read⟩

theorem Holding.push {s t : State} {l : List Byte} (h : Holding s l t) (hl : l.length < CAP) (v : Byte) :
    ∃ t', rbPush v t = .ok t' ∧ Holding s (l ++ [v]) t' := by
  obtain ⟨t', ht⟩ := rbPush_of_lt v (s := t) (by rw [h.count]; exact hl)
  obtain ⟨-, h1, h2, h3, h4, h5⟩ := rbPush_ok ht
  refine ⟨t', ht, by rw [h1, h.count]; simp, rbPush_wf h.wf ht, h3.trans h.escaping, ?_, fun k => ?_⟩
  · exact ⟨h5.1.trans h.outside.1, h5.2.1.trans h.outside.2.1, h5.2.2.1.trans h.outside.2.2.1,
      h5.2.2.2.trans h.outside.2.2.2⟩
  · rw [rbPush_read h.wf ht, h.read, h.count]
    simp only [byteAt, List.getD_eq_getElem?_getD, List.length_append, List.length_singleton]
    by_cases h1 : l.length = k
    · subst h1; simp
    · by_cases h2 : k < l.length
      · simp [h1, h2, show k < l.length + 1 by omega]
      · simp [h1, h2, show ¬ k < l.length + 1 by omega]

theorem Holding.readRun {s t : State} {l : List Byte} (h : Holding s l t) {i n : Nat} (hn : i + n ≤ l.length) :
    t.buf.readRun i n = (l.drop i).take n := by
  apply List.ext_getElem?
  intro k
  rw [Memory.readRun_eq_map]
  by_cases hk : k < n
  · have : i + k < l.length := by omega
    simp [hk, List.getElem?_drop, h.read, this, byteAt, List.getD_eq_getElem?_getD]
  · simp [hk]

theorem Holding.rbPayload {s t : State} {l : List Byte} (h : Holding s l t) :
    rbPayload t = (l.drop 1).take (l.length - 3) := by
  unfold Machine.rbPayload
  rw [h.count]
  split_ifs with h3
  · exact h.readRun (by omega)
  · have : l.length - 3 = 0 := by omega
    simp [this]

theorem Holding.idByte {s t : State} {x : Byte} {l : List Byte} (h : Holding s (x :: l) t) : idByte t = x := by
  have h0 := h.read 0
  simp [byteAt] at h0
  exact h0

/-- Completeness of a buffer that holds an id and the bytes of `l` behind it (R106). -/
theorem Holding.complete_iff {s t : State} {x : Byte} {l : List Byte} (h : Holding s (x :: l) t) :
    rbIsComplete t = true ↔
      ∃ n, sizeProbe s.config x (l.take (l.length - 2)) = .known n ∧ l.length = n + 2 := by
  rw [rbIsComplete_iff, h.idByte, h.rbPayload, h.count, h.outside.1]
  simp

theorem probeFits_of_not_bulk {c : Config} {id : Byte} {p : List Byte} (hk : kindOf c id ≠ .bulkCapacitance)
    (h : sizeProbe c id p = .known p.length) : ProbeFits c id p :=
  ⟨h, fun k => .inr (by rw [(sizeProbe_of_not_bulk hk (p.take k) p).1, h])⟩

theorem probeFits_of_bulk {c : Config} {id : Byte} {p : List Byte} (hk : kindOf c id = .bulkCapacitance)
    (h : sizeProbe c id p = .known p.length) : ProbeFits c id p := by
  refine ⟨h, fun k => ?_⟩
  rw [sizeProbe_of_bulk hk] at h ⊢
  by_cases h2 : (p.take k).length < 2
  · left
    rw [if_pos h2]
  · right
    rw [if_neg h2]
    split_ifs at h with h3
    have hb : byteAt (p.take k) 1 = byteAt p 1 := by
      simp only [byteAt, List.getD_eq_getElem?_getD, List.getElem?_take]
      have : 1 < k := by simp at h2; omega
      simp [this]
    rw [hb, h]

/-- Along a frame whose probe fits, every byte but the last leaves the buffer incomplete and answers `None` (R108). -/
theorem storeAll_prefix {s : State} {id : Byte} {p : List Byte} (ckA ckB : Byte) (hc : s.count.val = 0)
    (hw : s.buf.wf = true) (hl : p.length ≤ maxPayload) (hf : ProbeFits s.config id p) {j : Nat} (hj : j < p.length + 2) :
    Holding s (id :: (p ++ [ckA, ckB]).take j) (storeAll (id :: (p ++ [ckA, ckB]).take j) s) ∧
      (storeAll (id :: (p ++ [ckA, ckB]).take j) s).result = .outcome .none := by
  have hmax : maxPayload = 125 := rfl
  have hcap : CAP = 128 := rfl
  induction j with
  | zero =>
    obtain ⟨t, ht, hh⟩ := (Holding.nil hc hw).push (by simp) id
    simp only [List.nil_append] at hh
    have hn : rbIsComplete t = false := by
      by_contra h
      simp only [Bool.not_eq_false] at h
      obtain ⟨n, -, hn⟩ := hh.complete_iff.mp h
      simp at hn
    have he : storeAll (id :: (p ++ [ckA, ckB]).take 0) s = Machine.emit .none t := by
      simp [storeAll, storeByte_of_incomplete ht hn]
    rw [he]
    exact ⟨by simpa using hh.emit _, rfl⟩
  | succ j ih =>
    obtain ⟨ih, -⟩ := ih (by omega)
    have hlen : (p ++ [ckA, ckB]).length = p.length + 2 := by simp
    have htk : (p ++ [ckA, ckB]).take (j + 1) = (p ++ [ckA, ckB]).take j ++ [(p ++ [ckA, ckB])[j]'(by omega)] := by
      rw [List.take_succ_eq_append_getElem]
    obtain ⟨t, ht, hh⟩ := ih.push (by simp; omega) ((p ++ [ckA, ckB])[j]'(by omega))
    rw [List.cons_append, ← htk] at hh
    have hn : rbIsComplete t = false := by
      by_contra h
      simp only [Bool.not_eq_false] at h
      obtain ⟨n, h1, hn⟩ := hh.complete_iff.mp h
      have hj' : ((p ++ [ckA, ckB]).take (j + 1)).length = j + 1 := by simp; omega
      rw [hj', List.take_take, Nat.min_eq_left (by omega), List.take_append_of_le_length (by omega)] at h1
      rcases hf.2 (j + 1 - 2) with h2 | h2
      · rw [h1] at h2; cases h2
      · rw [h1] at h2; cases h2; omega
    rw [htk, ← List.cons_append, storeAll_snoc, storeByte_of_incomplete ht hn, List.cons_append, ← htk]
    exact ⟨hh.emit _, rfl⟩

/-- The last byte of such a frame completes the buffer, which holds the whole frame. -/
theorem storeAll_frame {s : State} {id : Byte} {p : List Byte} (ckA ckB : Byte) (hc : s.count.val = 0)
    (hw : s.buf.wf = true) (hl : p.length ≤ maxPayload) (hf : ProbeFits s.config id p) :
    ∃ t, Holding s (id :: (p ++ [ckA, ckB])) t ∧ storeAll (id :: (p ++ [ckA, ckB])) s = completeFrame t := by
  have hmax : maxPayload = 125 := rfl
  have hcap : CAP = 128 := rfl
  obtain ⟨ih, -⟩ := storeAll_prefix ckA ckB hc hw hl hf (j := p.length + 1) (by omega)
  have htk : p ++ [ckA, ckB] = (p ++ [ckA, ckB]).take (p.length + 1) ++ [ckB] := by
    simp [List.take_append]
  obtain ⟨t, ht, hh⟩ := ih.push (by simp; omega) ckB
  rw [List.cons_append, ← htk] at hh
  refine ⟨t, hh, ?_⟩
  have hcm : rbIsComplete t = true := by
    rw [hh.complete_iff]
    exact ⟨p.length, by simpa using hf.1, by simp⟩
  rw [htk, ← List.cons_append, storeAll_snoc, storeByte_of_complete ht hcm]

end Sys2Proof.Machine
end

