-- ==== Sys2Proof/Tests/Slice0.lean ====
section
/-! SUPPORT. Tests on small states, their expected values from spec/95_test_vectors.md (named in each comment) or written out from the
tables of spec/30_encoding.md, and for each statement with premises a witness that meets them. -/

namespace Sys2Proof.Tests

open Sys2Proof.Machine

-- ==== Helpers ====

/-- The cells of the bytes held from an index on. -/
def cells (k : Nat) : List Byte → Memory
  | [] => []
  | v :: vs => if v = 0 then cells (k + 1) vs else (k, v) :: cells (k + 1) vs

/-- The reset state, but holding these bytes. -/
def holding (l : List Byte) : State :=
  { State.reset with count := Fin.ofNat 129 l.length, buf := cells 0 l }

/-- The same with an escape pending. -/
def escaped (l : List Byte) : State := { holding l with escaping := true }

/-- A full buffer (B13). -/
def full : State := holding (List.replicate 128 0xAA)

/-- A second configuration: no acknowledgment byte, one extra kind of the longest payload, one of the shortest. -/
def cfg0 : Config := { Config.ex with ackLen := 0, extraKinds := [⟨0x10, 125⟩, ⟨0x11, 0⟩] }

def under (c : Config) : State := { State.reset with config := c }

/-- The state a step or an instruction answers. -/
def after (o : Host.Outcome State Fault Refusal) : State :=
  match o with
  | .next t => t
  | .fault _ => full
  | .refused _ => full

def result? (o : Host.Outcome State Fault Refusal) : Option Result :=
  match o with
  | .next t => some t.result
  | .fault _ => none
  | .refused _ => none

/-- `(count, escaping)` and the return value: a row of section 2.3. -/
def row (o : Host.Outcome State Fault Refusal) : Option (Nat × Bool × Result) :=
  match o with
  | .next t => some (t.count.val, t.escaping, t.result)
  | .fault _ => none
  | .refused _ => none

def refusal? (o : Host.Outcome State Fault Refusal) : Option Refusal :=
  match o with
  | .next _ => none
  | .fault _ => none
  | .refused r => some r

def zeros (n : Nat) : List Byte := List.replicate n 0

-- ==== WellFormed: one ill-formed term for each check ====

theorem test_wf_refuses_control_data : (Instr.data 0x7D).wf Config.ex = false ∧ (Instr.data 0x7E).wf Config.ex = false := by
  decide
theorem test_wf_refuses_short_mask : (Instr.electrodeEnable (zeros 15) 0 0).wf Config.ex = false := by decide
theorem test_wf_refuses_wrong_count : (Instr.bulkCapacitance 0 3 [4, 5] 0 0).wf Config.ex = false := by decide
theorem test_wf_refuses_missing_ack_byte : (Instr.ack none 0 0).wf Config.ex = false := by decide
theorem test_wf_refuses_ack_byte_at_length_zero : (Instr.ack (some 1) 0 0).wf cfg0 = false := by decide
theorem test_wf_refuses_short_extra : (Instr.extra 0x10 [1] 0 0).wf cfg0 = false := by decide
theorem test_wf_refuses_undeclared_extra : (Instr.extra 0x55 [] 0 0).wf Config.ex = false := by decide
theorem test_wf_refuses_known_unknown : (Instr.unknown 0x03 0 0).wf Config.ex = false := by decide
theorem test_wf_refuses_long_probe : (Instr.sizeProbe 0x03 (zeros 126)).wf Config.ex = false := by decide +kernel
theorem test_wf_refuses_ill_formed_messages :
    (Instr.encodeMsg (.electrodeEnable [])).wf Config.ex = false ∧ (Instr.catEncode (.ack none)).wf Config.ex = false ∧
      (Instr.catEncode (.extra 0x10 [])).wf cfg0 = false := by decide
theorem test_wf_accepts :
    (Instr.data 0x7C).wf Config.ex = true ∧ (Instr.bulkCapacitance 0 2 [4, 5] 0 0).wf Config.ex = true ∧
      (Instr.unknown 0x55 0 0).wf Config.ex = true ∧ (Instr.extra 0x10 (zeros 125) 0 0).wf cfg0 = true := by decide +kernel
theorem test_config_refuses_equal_ids : ¬ { Config.ex with idAck := 0x00 }.Valid := by decide
theorem test_config_refuses_long_extra : ¬ { Config.ex with extraKinds := [⟨0x10, 126⟩] }.Valid := by decide

-- ==== Decode: words written out from tables R64, R60 and R69 ====

theorem test_decode_symbols :
    decode Config.ex (.symbol false) [0b01111101] = .ok (.esc, []) ∧
    decode Config.ex (.symbol false) [0b01111110] = .ok (.flag, []) ∧
    decode Config.ex (.symbol false) [0b01111100] = .ok (.data 0x7C, []) ∧
    decode Config.ex (.symbol true) [0b01111101] = .ok (.unstuff 0x7D, []) ∧
    decode Config.ex (.symbol true) [0b00100000] = .ok (.unstuff 0x20, []) := by decide
theorem test_decode_electrodeEnable :
    decode Config.ex .frame [0x00, 1, 2, 3, 4, 5, 6, 7, 8, 9, 10, 11, 12, 13, 14, 15, 16, 0xAA, 0xBB] =
      .ok (.electrodeEnable [1, 2, 3, 4, 5, 6, 7, 8, 9, 10, 11, 12, 13, 14, 15, 16] 0xAA 0xBB, []) := by decide
/-- S2: the frame of scenario B. -/
theorem test_decode_bulkCapacitance :
    decode Config.ex .frame [0x02, 0x00, 0x02, 0x04, 0x00, 0x05, 0x00, 0x0D, 0x32] =
      .ok (.bulkCapacitance 0 2 [4, 5] 0x0D 0x32, []) := by decide
/-- S1: the frame of scenario A, with a byte of the next frame behind it. -/
theorem test_decode_activeCapacitance :
    decode Config.ex .frame [0x03, 0x10, 0x11, 0x12, 0x13, 0x49, 0xB9, 0x77] =
      .ok (.activeCapacitance 0x1110 0x1312 0x49 0xB9, [0x77]) := by decide
theorem test_decode_ack :
    decode Config.ex .frame [0x04, 0x61, 0x65, 0x69] = .ok (.ack (some 0x61) 0x65 0x69, []) ∧
    decode cfg0 .frame [0x04, 0x61, 0x65] = .ok (.ack none 0x61 0x65, []) := by decide
theorem test_decode_motionCmd :
    decode Config.ex .frame [0x05, 0xFE, 0xFF, 0x10, 0x27, 0x39, 0x55] =
      .ok (.motionCmd (-2) 10000 0x39 0x55, []) := by decide
theorem test_decode_extra : decode cfg0 .frame [0x11, 0x22, 0x33] = .ok (.extra 0x11 [] 0x22 0x33, []) := by decide
theorem test_decode_unknown :
    decode Config.ex .frame [0x55, 0x55, 0x56, 0x01] = .ok (.unknown 0x55 0x55 0x56, [0x01]) := by decide
theorem test_decode_rejects :
    decode Config.ex .frame [] = .error .noByte ∧ decode Config.ex .frame [0x02, 0x00] = .error .lengthUnknown ∧
    decode Config.ex .frame [0x03, 1, 2, 3, 4, 5] = .error .truncated := by decide
/-- Bit 0 of a table word is bit 0 of the first byte. -/
theorem test_decodeTableWord :
    decodeTableWord 8 0x7D = some .esc ∧ decodeTableWord 8 0x41 = some (.data 0x41) ∧
    decodeTableWord 56 0xB9491312111003 = some (.activeCapacitance 0x1110 0x1312 0x49 0xB9) ∧
    decodeTableWord 24 0x565555 = some (.unknown 0x55 0x55 0x56) := by decide +kernel
theorem test_withFetchWord :
    row (step (State.reset.withFetchWord 8 0x7D)) = some (0, true, .outcome .none) ∧
    row (step (State.reset.withFetchWord 56 0xB9491312111003)) =
      some (0, false, .outcome (.msg (.activeCapacitance 0x1110 0x1312))) := by decide +kernel

-- ==== Checksum (section 2.1) ====

/-- K5, K7, K9, K10, K14, K15. -/
theorem test_cksum_vectors :
    cksum [0xFF, 0x01] = (0x00, 0xFF) ∧ cksum [0x03, 0x10, 0x11, 0x12, 0x13] = (0x49, 0xB9) ∧
    cksum [0xFF, 0xFF, 0xFF] = (0xFD, 0xFA) ∧ cksum [0x02, 0, 2, 4, 0, 5, 0] = (0x0D, 0x32) ∧
    cksum [0x05, 0xFE, 0xFF, 0x10, 0x27] = (0x39, 0x55) ∧ cksum [2, 1] = (0x03, 0x05) := by decide
theorem test_ckNew : (after (exec .ckNew { State.reset with ck := ⟨1, 2⟩ })).ck = ⟨0, 0⟩ := by decide
/-- K5, second byte: `a` wraps and `b` takes the new `a`. -/
theorem test_ckAdd : (after (exec (.ckAdd 0x01) { State.reset with ck := ⟨0xFF, 0xFF⟩ })).ck = ⟨0x00, 0xFF⟩ := by decide
theorem test_ckGet : result? (exec .ckGet { State.reset with ck := ⟨0x49, 0xB9⟩ }) = some (.pair 0x49 0xB9) := by decide

-- ==== Receive buffer (section 2.2) ====

/-- B14: the last free cell. -/
theorem test_rbPush_last :
    row (exec (.rbPush 7) (holding (List.replicate 127 0xAA))) = some (128, false, .pushOk) ∧
    (after (exec (.rbPush 7) (holding (List.replicate 127 0xAA)))).buf.read 127 = 7 := by decide +kernel
/-- B13. -/
theorem test_rbPush_full : row (exec (.rbPush 7) full) = some (128, false, .pushFail .sizeOverrun) := by decide +kernel
theorem test_rbClear : row (exec .rbClear full) = some (0, false, .nothing) := by decide
/-- B5, and B1 for the missing id. -/
theorem test_rbId :
    result? (exec .rbId (holding [0x03, 0x10, 0x11, 0x12, 0x13, 0x49, 0xB9])) = some (.idView (some 0x03)) ∧
    result? (exec .rbId State.reset) = some (.idView none) := by decide
/-- B5 and B8. -/
theorem test_rbPayload :
    result? (exec .rbPayload (holding [0x03, 0x10, 0x11, 0x12, 0x13, 0x49, 0xB9])) =
      some (.bytes [0x10, 0x11, 0x12, 0x13]) ∧
    result? (exec .rbPayload (holding [0x02, 0x00, 0x02])) = some (.bytes []) := by decide
/-- B5, and the precondition R104. -/
theorem test_rbTrailer :
    result? (exec .rbTrailer (holding [0x03, 0x10, 0x11, 0x12, 0x13, 0x49, 0xB9])) = some (.pair 0x49 0xB9) ∧
    refusal? (exec .rbTrailer (holding [1, 2])) = some .trailerUndefined := by decide
/-- B5, and the precondition R105. -/
theorem test_rbCalcChecksum :
    result? (exec .rbCalcChecksum (holding [0x03, 0x10, 0x11, 0x12, 0x13, 0, 0])) = some (.pair 0x49 0xB9) ∧
    refusal? (exec .rbCalcChecksum (holding [1, 2])) = some .calcChecksumUndefined := by decide
/-- B3, B4, B7, B9b, B12. -/
theorem test_rbIsComplete :
    result? (exec .rbIsComplete (holding [0x03, 0x10, 0x11, 0x12, 0x13, 0x49])) = some (.complete false) ∧
    result? (exec .rbIsComplete (holding [0x03, 0x10, 0x11, 0x12, 0x13, 0x49, 0xB9])) = some (.complete true) ∧
    result? (exec .rbIsComplete (holding [0x55, 0x55, 0x55])) = some (.complete true) ∧
    result? (exec .rbIsComplete (holding [0x02, 0x00, 0x02, 0x04, 0x00])) = some (.complete false) ∧
    result? (exec .rbIsComplete (holding [0x02, 0x07, 0x00, 0x09, 0x14])) = some (.complete true) := by decide
/-- B16: never complete, not even at 128 bytes. -/
theorem test_rbIsComplete_oversized :
    result? (exec .rbIsComplete (holding ([0x02, 0x00, 0x3E] ++ List.replicate 125 0xAA))) = some (.complete false) := by
  decide +kernel

-- ==== Parser (section 2.3) ====

/-- P29: an escape has priority over a flag; P32: an unstuffed byte overflows. -/
theorem test_unstuff :
    row (exec (.unstuff 0x7E) (escaped [0x03, 0x10, 0x11])) = some (4, false, .outcome .none) ∧
    (after (exec (.unstuff 0x7E) (escaped [0x03, 0x10, 0x11]))).buf.read 3 = 0x5E ∧
    row (exec (.unstuff 0x7E) { full with escaping := true }) = some (0, false, .outcome .none) := by decide +kernel
/-- P15: the completing byte is an UNSTUFF. -/
theorem test_unstuff_completes :
    row (exec (.unstuff 0x5E) (escaped [0x03, 0x00, 0x25, 0x00, 0x00, 0x28])) =
      some (0, false, .outcome (.msg (.activeCapacitance 0x2500 0))) := by decide
/-- P26 and P30, first byte. -/
theorem test_esc :
    row (exec .esc State.reset) = some (0, true, .outcome .none) ∧ row (exec .esc full) = some (128, true, .outcome .none) := by
  decide +kernel
/-- P7, fourth byte, and P31. -/
theorem test_flag :
    row (exec .flag (holding [0x03, 0x10])) = some (0, false, .outcome .none) ∧
    row (exec .flag full) = some (0, false, .outcome .none) := by decide +kernel
/-- P8 and P9, last byte. -/
theorem test_data_checksumError :
    row (exec (.data 0xB9) (holding [0x03, 0x10, 0x11, 0x12, 0x12, 0x49])) =
      some (0, false, .outcome (.err (.checksumError 0xB949 0xB848))) ∧
    row (exec (.data 0xB8) (holding [0x03, 0x10, 0x11, 0x12, 0x13, 0x49])) =
      some (0, false, .outcome (.err (.checksumError 0xB849 0xB949))) := by decide +kernel
/-- P1, last byte, and P17, last byte. -/
theorem test_data :
    row (exec (.data 0xB9) (holding [0x03, 0x10, 0x11, 0x12, 0x13, 0x49])) =
      some (0, false, .outcome (.msg (.activeCapacitance 0x1110 0x1312))) ∧
    row (exec (.data 0xAA) full) = some (0, false, .outcome .none) := by decide +kernel
/-- P6 and P6b, last byte. -/
theorem test_feed_unknown :
    row (exec (.feed 0x55) (holding [0x55, 0x55])) = some (0, false, .outcome (.err (.unknownPacketId 0x55))) ∧
    row (exec (.feed 0x56) (holding [0x55, 0x55])) = some (0, false, .outcome (.err (.checksumError 0x5655 0x5555))) := by
  decide
/-- P27, second byte, and P28. -/
theorem test_feed_escapes :
    row (exec (.feed 0x7D) (escaped [])) = some (1, false, .outcome .none) ∧
    (after (exec (.feed 0x7D) (escaped []))).buf.read 0 = 0x5D ∧
    row (exec (.feed 0x7E) State.reset) = some (0, false, .outcome .none) := by decide
/-- Program 5, row 10. -/
theorem test_reset : row (exec .reset (escaped [0x03, 0x10])) = some (0, false, .nothing) := by decide
theorem test_fullReset : row (exec .fullReset (escaped [0x03, 0x10])) = some (0, false, .nothing) := by decide

-- ==== Frames (section 2.3, the frame after its flag, here from a state in the middle of another) ====

/-- P13. -/
theorem test_electrodeEnable :
    row (exec (.electrodeEnable ([0x01, 0x00, 0x7D, 0x7E, 0xFF] ++ zeros 11) 0xFB 0x40) (escaped [0x03, 0x10])) =
      some (0, false, .outcome (.msg (.electrodeEnable ([0x01, 0x00, 0x7D, 0x7E, 0xFF] ++ zeros 11)))) := by decide
/-- P2. -/
theorem test_bulkCapacitance :
    row (exec (.bulkCapacitance 0 2 [4, 5] 0x0D 0x32) (escaped [0x03, 0x10])) =
      some (0, false, .outcome (.msg (.bulkCapacitance 0 [4, 5]))) := by decide
/-- P1 and P8. -/
theorem test_activeCapacitance :
    row (exec (.activeCapacitance 0x1110 0x1312 0x49 0xB9) (escaped [0x03, 0x10])) =
      some (0, false, .outcome (.msg (.activeCapacitance 0x1110 0x1312))) ∧
    row (exec (.activeCapacitance 0x1110 0x1212 0x49 0xB9) State.reset) =
      some (0, false, .outcome (.err (.checksumError 0xB949 0xB848))) := by decide
/-- P5, and E15 with no acknowledgment byte. -/
theorem test_ack :
    row (exec (.ack (some 0x02) 0x06 0x0A) State.reset) = some (0, false, .outcome (.msg (.ack (some 0x02)))) ∧
    row (exec (.ack none 0x04 0x04) (under cfg0)) = some (0, false, .outcome (.msg (.ack none))) := by decide
/-- P4: the least `steps`. -/
theorem test_motionCmd :
    row (exec (.motionCmd 0x8000 0xFFFF 0x83 0x96) State.reset) =
      some (0, false, .outcome (.msg (.motionCmd 0x8000 0xFFFF))) ∧ (0x8000 : Half).toInt = -32768 := by decide
/-- The three-byte frame K11 of an extra kind of length 0. -/
theorem test_extra :
    row (exec (.extra 0x11 [] 0x11 0x11) (under cfg0)) = some (0, false, .outcome (.msg (.extra 0x11 []))) := by decide
/-- P6 and P6b. -/
theorem test_unknown :
    row (exec (.unknown 0x55 0x55 0x55) State.reset) = some (0, false, .outcome (.err (.unknownPacketId 0x55))) ∧
    row (exec (.unknown 0x55 0x55 0x56) State.reset) = some (0, false, .outcome (.err (.checksumError 0x5655 0x5555))) := by
  decide

-- ==== Catalog (section 2.4) ====

/-- M1, M3, M5, M6, M8, M9. -/
theorem test_sizeProbe :
    sizeProbe Config.ex 0x00 [] = .known 16 ∧ sizeProbe cfg0 0x04 [] = .known 0 ∧
    sizeProbe Config.ex 0x02 [0x00] = .unknown ∧ sizeProbe Config.ex 0x02 [0x00, 0x02] = .known 6 ∧
    sizeProbe Config.ex 0x02 [0x00, 0xFF] = .known 512 ∧ sizeProbe Config.ex 0x55 [1, 2, 3] = .known 0 := by decide
theorem test_sizeProbe_answers : result? (exec (.sizeProbe 0x05 [0xFE]) State.reset) = some (.probe (.known 4)) := by decide
/-- M10, M11, M13, M15. -/
theorem test_decode_message :
    result? (exec (.decode 0x03 [0x10, 0x11, 0x12, 0x13]) full) = some (.decodeOk (.activeCapacitance 0x1110 0x1312)) ∧
    result? (exec (.decode 0x02 [0x00, 0x02, 0x04, 0x00, 0x05, 0x00]) full) = some (.decodeOk (.bulkCapacitance 0 [4, 5])) ∧
    result? (exec (.decode 0x05 [0xFE, 0xFF, 0x10, 0x27]) full) = some (.decodeOk (.motionCmd (-2) 10000)) ∧
    result? (exec (.decode 0x05 [0x00, 0x80, 0xFF, 0xFF]) full) = some (.decodeOk (.motionCmd (-32768) 65535)) := by decide
/-- M18, M19, M20, M21. -/
theorem test_decode_errors :
    result? (exec (.decode 0x55 []) full) = some (.decodeErr (.unknownPacketId 0x55)) ∧
    result? (exec (.decode 0x03 [0x10, 0x11, 0x12]) full) = some (.decodeErr .deserializationError) ∧
    result? (exec (.decode 0x02 [0x00, 0x02, 0x04, 0x00, 0x05]) full) = some (.decodeErr .deserializationError) ∧
    result? (exec (.decode 0x03 [0x10, 0x11, 0x12, 0x13, 0x99]) full) =
      some (.decodeOk (.activeCapacitance 0x1110 0x1312)) := by decide
/-- M22, M23, M24. -/
theorem test_catEncode :
    result? (exec (.catEncode (.activeCapacitance 0x1110 0x1312)) full) = some (.encoded 0x03 [0x10, 0x11, 0x12, 0x13]) ∧
    result? (exec (.catEncode (.bulkCapacitance 0 [4, 5])) full) = some (.encoded 0x02 [0x00, 0x02, 0x04, 0x00, 0x05, 0x00]) ∧
    result? (exec (.catEncode (.motionCmd (-2) 10000)) full) = some (.encoded 0x05 [0xFE, 0xFF, 0x10, 0x27]) := by decide
/-- M25. -/
theorem test_catEncode_refuses :
    result? (exec (.catEncode (.bulkCapacitance 0 (List.replicate 256 7))) State.reset) = some (.refused .tooManyValues) := by
  decide +kernel

-- ==== Encoder (section 2.5) ====

/-- E4, E8, E10. -/
theorem test_encode :
    result? (exec (.encode 0x04 [0x7E]) full) = some (.bytes [0x7E, 0x04, 0x7D, 0x5E, 0x82, 0x86]) ∧
    result? (exec (.encode 0x03 [0xFD, 0x7E, 0x00, 0x00]) full) =
      some (.bytes [0x7E, 0x03, 0xFD, 0x7D, 0x5E, 0x00, 0x00, 0x7D, 0x5E, 0x7D, 0x5D]) ∧
    (after (exec (.encode 0x7E []) { full with output := [0x11] })).output =
      [0x11, 0x7E, 0x7D, 0x5E, 0x7D, 0x5E, 0x7D, 0x5E] := by decide
/-- E16. -/
theorem test_encode_refuses :
    result? (exec (.encode 0x02 (zeros 126)) State.reset) = some (.refused .payloadTooLong) ∧
    (after (exec (.encode 0x02 (zeros 126)) State.reset)).output = [] := by decide +kernel
/-- E18. -/
theorem test_encodeMsg :
    result? (exec (.encodeMsg (.ack (some 0x7E))) full) = some (.bytes [0x7E, 0x04, 0x7D, 0x5E, 0x82, 0x86]) := by decide
theorem test_stuff :
    result? (exec (.stuff 0x7D) full) = some (.bytes [0x7D, 0x5D]) ∧
    result? (exec (.stuff 0x5D) full) = some (.bytes [0x5D]) := by decide

-- ==== Streams and the fetch ====

/-- P15 whole: every byte but the last answers `None`. -/
theorem test_stream_P15 :
    feedAll [0x7E, 0x03, 0x00, 0x25, 0x00, 0x00, 0x28, 0x7D, 0x5E] State.reset =
      (List.replicate 8 (.outcome .none) ++ [.outcome (.msg (.activeCapacitance 0x2500 0))],
        { holding [] with
          buf := cells 0 [0x03, 0x00, 0x25, 0x00, 0x00, 0x28, 0x7E],
          result := .outcome (.msg (.activeCapacitance 0x2500 0)) }) := by decide
/-- P20: a pending escape swallows the flag, and the frame falls into phantom frames. -/
theorem test_stream_P20 :
    (feedAll [0x7D, 0x7E, 0x03, 0x10, 0x11, 0x12, 0x13, 0x49, 0xB9] State.reset).1 =
      [.outcome .none, .outcome .none, .outcome .none, .outcome (.err (.checksumError 0x1003 0x5E5E)),
        .outcome .none, .outcome .none, .outcome (.err (.checksumError 0x1312 0x1111)),
        .outcome .none, .outcome .none] := by decide
/-- R151: no argument makes SIZE_PROBE fail; R197: the encoder frames what it is given (K11: the trailer of a lone id). -/
theorem test_step_runs_every_call :
    row (step { State.reset with input := [.call (.sizeProbe 0x03 (zeros 126))] }) = some (0, false, .probe (.known 4)) ∧
    row (step { State.reset with input := [.call (.encodeMsg (.ack none))] }) =
      some (0, false, .bytes [0x7E, 0x04, 0x04, 0x04]) := by decide +kernel
theorem test_step_idle : row (step State.reset) = some (0, false, .nothing) := by decide
theorem test_step_refuses_symbol_call :
    refusal? (step { State.reset with input := [.call .flag] }) = some .notAnOperation ∧
    refusal? (step { State.reset with input := [.frameBytes [0x03]] }) = some (.undecodable .truncated) := by decide

-- ==== Witnesses: for each statement with premises, states and operands that meet them, at the ends of their ranges ====

/-- The frame of scenario A without its last byte, and a frame of an unknown id without its last byte. -/
def almostA : State := holding [0x03, 0x10, 0x11, 0x12, 0x13, 0x49]
def almostUnknown : State := holding [0x55, 0x55]
/-- P15 without its last byte: the last byte stored is `0x5E XOR 0x20`. -/
def almostP15 : State := holding [0x03, 0x00, 0x25, 0x00, 0x00, 0x28]

/-- The state a push leaves. -/
def pushed (v : Byte) (s : State) : State :=
  match rbPush v s with
  | .ok t => t
  | .error _ => full

theorem next_after {i : Instr} {s t : State} (h : exec i s = .next t) : exec i s = .next (after (exec i s)) := by
  rw [h]
  rfl

theorem valid_ex : Config.ex.Valid := by decide +kernel
theorem valid_cfg0 : cfg0.Valid := by decide +kernel
theorem inv_under : (under Config.ex).Inv ∧ (under cfg0).Inv := ⟨⟨rfl, valid_ex⟩, rfl, valid_cfg0⟩

theorem witness_AccumulatorIsResetOnlyByConstruction :
    exec .ckGet full = .next (after (exec .ckGet full)) ∧ Instr.ckGet ≠ .ckNew ∧ ∀ x, Instr.ckGet ≠ .ckAdd x :=
  ⟨rfl, by simp, by simp⟩
theorem witness_CksumDetectsEverySingleByteChange : (1 : Byte) ≠ 0 ∧ (cksum [0xFF, 0x01]).1 = 0 := by decide
theorem witness_RbPushStoresAtCountOrFails :
    (holding (List.replicate 127 0xAA)).buf.wf = true ∧ (holding (List.replicate 127 0xAA)).count.val < 128 ∧
      full.count.val = 128 := by decide +kernel
theorem witness_RbIdIsByteZero : 1 ≤ (holding [0x03]).count.val ∧ State.reset.count.val = 0 := by decide
theorem witness_RbPayloadLeavesOutIdAndTrailer : 0 < (holding [1, 2, 3, 4]).count.val - 3 := by decide
theorem witness_TrailerAndChecksumNeedThreeBytes :
    3 ≤ (holding [1, 2, 3]).count.val ∧ (holding [1, 2]).count.val < 3 := by decide
theorem witness_OnlyBulkIsEverTooLong :
    Config.ex.Valid ∧ sizeProbe Config.ex 0x02 [0, 62] = .known 126 ∧ maxPayload < 126 ∧
      (holding [0x02, 0, 62]).buf.read 0 = Config.ex.idBulkCapacitance ∧
      62 ≤ ((holding [0x02, 0, 62]).buf.read 2).toNat := ⟨valid_ex, by decide⟩
theorem witness_FeedRunsTheSymbolTheByteIs :
    (escaped []).escaping = true ∧ State.reset.escaping = false ∧ (0x7C : Byte) ≠ 0x7D ∧ (0x7C : Byte) ≠ 0x7E := by decide
theorem witness_OverflowIsSilent : full.count.val = 128 := by decide +kernel
theorem witness_ResetsWriteNoByteOfTheBuffer :
    exec .rbClear full = .next (after (exec .rbClear full)) ∧ full.count.val = 128 ∧
      exec (.data 0xAA) full = .next (after (exec (.data 0xAA) full)) ∧
      exec (.unstuff 0x7E) full = .next (after (exec (.unstuff 0x7E) full)) ∧
      exec (.data 0xB9) almostA = .next (after (exec (.data 0xB9) almostA)) ∧
      rbPush 0xB9 almostA = .ok (pushed 0xB9 almostA) ∧
      exec (.unstuff 0x5E) almostP15 = .next (after (exec (.unstuff 0x5E) almostP15)) ∧
      rbPush (0x5E ^^^ 0x20) almostP15 = .ok (pushed 0x7E almostP15) :=
  ⟨rfl, by decide +kernel, next_after (exec_data _ _), next_after (exec_unstuff _ _), next_after (exec_data _ _), by decide,
    next_after (exec_unstuff _ _), by decide⟩
theorem witness_IncompleteStoreKeepsTheByte :
    full.buf.wf = true ∧ almostP15.buf.wf = true ∧
      rbPush 0x10 (holding [0x03]) = .ok (pushed 0x10 (holding [0x03])) ∧
      rbIsComplete (pushed 0x10 (holding [0x03])) = false ∧
      rbPush (0x30 ^^^ 0x20) (escaped [0x03]) = .ok (pushed 0x10 (escaped [0x03])) ∧
      rbIsComplete (pushed 0x10 (escaped [0x03])) = false ∧ State.reset.count.val = 0 := by decide +kernel
theorem witness_GoodFrameIsDecodedThenReset :
    rbPush 0xB9 almostA = .ok (pushed 0xB9 almostA) ∧ rbIsComplete (pushed 0xB9 almostA) = true ∧
      rbTrailer (pushed 0xB9 almostA) = rbCalcChecksum (pushed 0xB9 almostA) ∧
      rbPush (0x5E ^^^ 0x20) almostP15 = .ok (pushed 0x7E almostP15) ∧ rbIsComplete (pushed 0x7E almostP15) = true ∧
      rbTrailer (pushed 0x7E almostP15) = rbCalcChecksum (pushed 0x7E almostP15) := by decide
theorem witness_GoodFrameIsDecodedThenReset_unknown :
    rbPush 0x55 almostUnknown = .ok (pushed 0x55 almostUnknown) ∧ rbIsComplete (pushed 0x55 almostUnknown) = true ∧
      rbTrailer (pushed 0x55 almostUnknown) = rbCalcChecksum (pushed 0x55 almostUnknown) ∧
      decodeMessage Config.ex 0x55 [] = .error (.unknownPacketId 0x55) := ⟨by decide, by decide, by decide, rfl⟩
theorem witness_BadChecksumIsReportedThenReset :
    rbPush 0xB8 almostA = .ok (pushed 0xB8 almostA) ∧ rbIsComplete (pushed 0xB8 almostA) = true ∧
      rbTrailer (pushed 0xB8 almostA) ≠ rbCalcChecksum (pushed 0xB8 almostA) ∧
      rbPush (0x5D ^^^ 0x20) almostP15 = .ok (pushed 0x7D almostP15) ∧ rbIsComplete (pushed 0x7D almostP15) = true ∧
      rbTrailer (pushed 0x7D almostP15) ≠ rbCalcChecksum (pushed 0x7D almostP15) := by decide
/-- The rows of the table on the frame's last byte are those of the two witnesses above; these are the others. -/
theorem witness_FeedFollowsTheTransitionTable :
    State.reset.escaping = false ∧ (escaped []).escaping = true ∧ full.count.val = 128 ∧ full.escaping = false ∧
      (0xAA : Byte) ≠ 0x7D ∧ (0xAA : Byte) ≠ 0x7E ∧ almostA.escaping = false ∧ (0xB9 : Byte) ≠ 0x7D ∧ (0xB9 : Byte) ≠ 0x7E := by
  decide +kernel
theorem witness_CleanAfterEveryOutcome :
    exec (.feed 0xB9) almostA = .next (after (exec (.feed 0xB9) almostA)) ∧
      (after (exec (.feed 0xB9) almostA)).result ≠ .outcome .none ∧ full.count.val = 128 ∧
      exec .reset full = .next (after (exec .reset full)) := ⟨rfl, by decide, by decide +kernel, rfl⟩
theorem witness_TwoFlagsAlwaysResynchronise :
    exec (.feed 0x7E) (escaped [0x03]) = .next (after (exec (.feed 0x7E) (escaped [0x03]))) ∧
      State.reset.escaping = false := ⟨rfl, rfl⟩
theorem witness_FixedSizeFramesAreDelivered :
    (under cfg0).Inv ∧ (zeros 16).length = 16 ∧ (some (1 : Byte)).toList.length = Config.ex.ackLen.val ∧
      (none : Option Byte).toList.length = cfg0.ackLen.val ∧ (⟨0x10, (zeros 125).length⟩ : ExtraKind) ∈ cfg0.extraKinds ∧
      (⟨0x11, ([] : List Byte).length⟩ : ExtraKind) ∈ cfg0.extraKinds :=
  ⟨inv_under.2, by decide, rfl, rfl, by decide +kernel, by decide⟩
theorem witness_ReceivableBulkFramesAreDelivered :
    (under Config.ex).Inv ∧ (List.replicate 61 (7 : Half)).length = (61 : Byte).toNat ∧ (61 : Byte).toNat ≤ 61 :=
  ⟨inv_under.1, by decide⟩
theorem witness_UnreceivableBulkFramesAreDroppedSilently :
    (under Config.ex).Inv ∧ (List.replicate 62 (7 : Half)).length = (62 : Byte).toNat ∧ 62 ≤ (62 : Byte).toNat :=
  ⟨inv_under.1, by decide⟩
theorem witness_UnknownFramesAreReported : (under cfg0).Inv ∧ (0x12 : Byte) ∉ cfg0.ids := ⟨inv_under.2, by decide⟩
theorem witness_FrameInstructionIsItsWireBytesFed :
    encode Config.ex (.ack (some 0x7E) 0x82 0x86) = some (.frame, [0x04, 0x7E, 0x82, 0x86]) ∧
      (holding [0x03, 0x10]).escaping = false := by decide
theorem witness_SizeProbeAnswersPerKind :
    cfg0.Valid ∧ ([1] : List Byte).length < 2 ∧ [1, 2] = (1 : Byte) :: 2 :: [] ∧ (⟨0x10, 125⟩ : ExtraKind) ∈ cfg0.extraKinds ∧
      (0x12 : Byte) ∉ cfg0.ids := ⟨valid_cfg0, by decide⟩
theorem witness_DecodeChecksTheIdThenTheLength :
    (0x55 : Byte) ∉ Config.ex.ids ∧ (0x02 : Byte) ∈ Config.ex.ids ∧ sizeProbe Config.ex 0x02 [0] = .unknown ∧
      sizeProbe Config.ex 0x02 [0, 1, 4] = .known 4 ∧ ([0, 1, 4] : List Byte).length < 4 ∧
      sizeProbe Config.ex 0x02 [0, 1, 4, 0] = .known 4 ∧ 4 ≤ ([0, 1, 4, 0] : List Byte).length := by decide
theorem witness_UnknownIdIsADefinedOutcome :
    (0x55 : Byte) ∉ Config.ex.ids ∧ (Message.ack (some 1)).wf Config.ex = true ∧ (holding [0x55]).buf.read 0 = 0x55 := by
  decide
theorem witness_ElectrodeEnableMaskIsCopied : (zeros 15).length < 16 ∧ 16 ≤ (zeros 16).length := by decide
theorem witness_BulkCapacitanceCountIsTheSecondByte :
    Config.ex.Valid ∧ ([0] : List Byte).length < 2 ∧ ([4, 0, 5] : List Byte).length < 2 * (2 : Byte).toNat ∧
      2 * (2 : Byte).toNat ≤ ([4, 0, 5, 0] : List Byte).length ∧ (List.replicate 255 (7 : Half)).length ≤ 255 ∧
      255 < (List.replicate 256 (7 : Half)).length ∧ 62 ≤ (List.replicate 62 (7 : Half)).length ∧
      (List.replicate 62 (7 : Half)).length ≤ 255 ∧ Config.ex.encMaxPayload = 125 := ⟨valid_ex, by decide +kernel⟩
theorem witness_ActiveCapacitanceIsLittleEndian : Config.ex.Valid ∧ (zeros 3).length < 4 := ⟨valid_ex, by decide⟩
theorem witness_AckHasTheConfiguredLength :
    Config.ex.Valid ∧ Config.ex.ackLen = 1 ∧ cfg0.Valid ∧ cfg0.ackLen = 0 := ⟨valid_ex, rfl, valid_cfg0, rfl⟩
theorem witness_MotionCmdStepsIsTwosComplement :
    Config.ex.Valid ∧ (zeros 3).length < 4 ∧ (0xFF : Byte).toNat + (0x7F : Byte).toNat * 256 = 32767 ∧
      (0x00 : Byte).toNat + (0x80 : Byte).toNat * 256 = 32768 ∧ (0 : Half).toInt = 0 ∧ (0xFFFF : Half).toInt < 0 :=
  ⟨valid_ex, by decide⟩
theorem witness_ExtraKindsAreOpaqueBytes :
    cfg0.Valid ∧ (⟨0x10, 125⟩ : ExtraKind) ∈ cfg0.extraKinds ∧ 125 ≤ (zeros 125).length :=
  ⟨valid_cfg0, by decide, by decide +kernel⟩
theorem witness_CatalogFunctionsAgree :
    Config.ex.Valid ∧ (Message.bulkCapacitance 0 [4, 5]).wf Config.ex = true ∧
      result? (exec (.catEncode (.bulkCapacitance 0 [4, 5])) State.reset) =
        some (.encoded 0x02 [0, 2, 4, 0, 5, 0]) ∧ 2 ≤ (([0, 2, 4, 0, 5, 0] : List Byte).take 2).length :=
  ⟨valid_ex, by decide⟩
theorem witness_EncodeFramesIdPayloadAndChecksum : (zeros 125).length ≤ Config.ex.encMaxPayload ∧
    Config.ex.encMaxPayload < (zeros 126).length := by decide +kernel
theorem witness_StuffingLeavesNoControlByteAlone :
    (0x7C : Byte) ≠ 0x7D ∧ (0x7C : Byte) ≠ 0x7E ∧
      result? (exec (.encode 0x04 [0x7E]) State.reset) = some (.bytes [0x7E, 0x04, 0x7D, 0x5E, 0x82, 0x86]) := by decide
/-- E11, the shortest frame. -/
theorem witness_EncodeLengthCountsTheStuffedBytes :
    result? (exec (.encode 0x55 []) State.reset) = some (.bytes [0x7E, 0x55, 0x55, 0x55]) ∧
      Config.ex.encMaxPayload = 125 := by decide
theorem witness_EncodeRefusesLongPayloads :
    Config.ex.encMaxPayload < (zeros 126).length ∧
      result? (exec (.encode 0x02 (zeros 126)) State.reset) = some (.refused .payloadTooLong) := by decide +kernel
theorem witness_EncodeMsgIsCatEncodeThenEncode :
    Config.ex.Valid ∧ Config.ex.encMaxPayload = 125 ∧
      (Message.bulkCapacitance 0 (List.replicate 62 7)).wf Config.ex = true ∧
      exec (.catEncode (.ack (some 1))) State.reset = .next { State.reset with result := .encoded 0x04 [1] } ∧
      exec (.catEncode (.bulkCapacitance 0 (List.replicate 256 7))) State.reset =
        .next { State.reset with result := .refused .tooManyValues } :=
  ⟨valid_ex, rfl, rfl, rfl, (exec_catEncode _ _).trans (congrArg _ (by decide +kernel))⟩
theorem witness_EncoderAndParserDoNotInfluenceEachOther :
    full.config = State.reset.config ∧
      exec (.encode 0x04 [1]) full = .next (after (exec (.encode 0x04 [1]) full)) ∧
      exec (.feed 0xB9) almostA = .next (after (exec (.feed 0xB9) almostA)) := ⟨rfl, rfl, rfl⟩
theorem witness_EncodedFrameRoundTrips :
    State.reset.buf.wf = true ∧ State.reset.escaping = false ∧ ([0x7E] : List Byte).length ≤ maxPayload ∧
      ProbeFits Config.ex 0x04 [0x7E] ∧
      result? (exec (.encode 0x04 [0x7E]) State.reset) = some (.bytes [0x7E, 0x04, 0x7D, 0x5E, 0x82, 0x86]) ∧
      Config.ex.Valid ∧ (Message.ack (some 0x7E)).wf Config.ex = true ∧
      encodeMessage Config.ex (.ack (some 0x7E)) = .ok (0x04, [0x7E]) ∧ (0x55 : Byte) ∉ Config.ex.ids :=
  ⟨rfl, rfl, by decide, probeFits_of_not_bulk (by decide) (by decide), by decide, valid_ex, by decide⟩
theorem witness_EncodedMessageComesBack :
    State.reset.Inv ∧ Config.ex.encMaxPayload ≤ maxPayload ∧ State.reset.escaping = false ∧
      (Message.ack (some 0x7E)).wf Config.ex = true ∧
      result? (exec (.encodeMsg (.ack (some 0x7E))) State.reset) =
        some (.bytes [0x7E, 0x04, 0x7D, 0x5E, 0x82, 0x86]) :=
  ⟨⟨rfl, valid_ex⟩, by decide, rfl, by decide, by decide⟩
/-- P8: the last payload byte 0x13 becomes 0x12. The second line: a bulk frame whose start index changes. -/
theorem witness_OneCorruptedPayloadByteIsReported :
    State.reset.buf.wf = true ∧ ProbeFits Config.ex 0x03 ([0x10, 0x11, 0x12] ++ 0x13 :: []) ∧
      ProbeFits Config.ex 0x02 ([] ++ 0x05 :: [0x00]) ∧ isControl 0x13 = false ∧ isControl 0x12 = false ∧
      (0x13 : Byte) ≠ 0x12 ∧ ([] : List Byte).length ≠ 1 ∧
      result? (exec (.encode 0x03 ([0x10, 0x11, 0x12] ++ 0x13 :: [])) State.reset) =
        some (.bytes [0x7E, 0x03, 0x10, 0x11, 0x12, 0x13, 0x49, 0xB9]) :=
  ⟨rfl, probeFits_of_not_bulk (by decide) (by decide), probeFits_of_bulk (by decide) (by decide), by decide⟩
theorem witness_StepRunsTheDecodedInstruction :
    decode Config.ex (.symbol true) [0x7E] = .ok (.unstuff 0x7E, []) ∧
      decode Config.ex .frame [0x55, 0x55, 0x56, 0x01] = .ok (.unknown 0x55 0x55 0x56, [0x01]) ∧
      (Instr.sizeProbe 0x03 (zeros 126)).format = .op ∧ (Instr.encodeMsg (.ack none)).format = .op ∧
      State.reset.input = [] := by decide +kernel
theorem witness_WireStreamIsRepeatedFeed : 1 < ([0x7E, 0x55] : List Byte).length := by decide
theorem witness_DecodeOfEncodeIsTheInstruction :
    cfg0.Valid ∧ (Instr.extra 0x11 [] 1 2).wf cfg0 = true ∧
      encode cfg0 (.extra 0x11 [] 1 2) = some (.frame, [0x11, 1, 2]) := ⟨valid_cfg0, by decide⟩
theorem witness_DecodedBytesAreTheEncoding :
    decode cfg0 .frame [0x04, 0x61, 0x65, 9] = .ok (.ack none 0x61 0x65, [9]) := by decide
theorem witness_StepKeepsInvariant : State.reset.Inv ∧ step State.reset = .next (after (step State.reset)) :=
  ⟨⟨rfl, valid_ex⟩, rfl⟩
theorem witness_ConfigurationIsConstant : exec .ckGet full = .next (after (exec .ckGet full)) := rfl

/-- Driven by HOST in the middle of a frame. -/
def driven : State :=
  { almostA with input := [.wireByte 0xB9, .call .reset, .call (.encode 0x55 []), .call (.encodeMsg (.ack (some 1)))] }

theorem witness_HostDrivenStepKeepsTheParserAtRest :
    driven.HostDriven ∧ driven.buf.wf = true ∧ driven.atRest = true ∧ step driven = .next (after (step driven)) :=
  ⟨by decide, by decide, by decide, rfl⟩
theorem witness_HostDrivenMachineNeverStops : driven.HostDriven := by decide

/-- Two states that hold the same two bytes and differ above them. -/
theorem witness_StaleBytesAreUnobservable :
    (holding [0x03, 0x10]).sameBelow { holding [0x03, 0x10] with buf := cells 0 [0x03, 0x10, 0x77] } ∧
      holding [0x03, 0x10] ≠ { holding [0x03, 0x10] with buf := cells 0 [0x03, 0x10, 0x77] } ∧
      (cells 0 [0x03, 0x10, 0x77]).wf = true ∧ exec .rbId (holding [0x03, 0x10]) = .next (after (exec .rbId (holding [0x03, 0x10]))) := by
  refine ⟨⟨rfl, rfl, rfl, rfl, rfl, rfl, rfl, fun k hk => ?_⟩, by decide, by decide, rfl⟩
  have h2 : k < 2 := hk
  match k, h2 with
  | 0, _ => rfl
  | 1, _ => rfl

end Sys2Proof.Tests
end

section
/-! PROOFS. The statements about the state: the configuration, the clean state, encoder against parser, and the bytes of `buf` at and
above `count`. Each is assembled from one lemma per shared operation. -/

namespace Sys2Proof.Machine

/-- A FRAME row runs as the arrival of the bytes the encoder gives it (log 9). -/
theorem exec_of_encode_frame {i : Instr} {s : State} {bytes : List Byte}
    (h : encode s.config i = some (.frame, bytes)) : exec i s = .next (receiveFrame bytes s) := by
  cases i <;> cases h <;> rfl

theorem exec_rbPush_of_ok {v : Byte} {s t : State} (h : rbPush v s = .ok t) :
    exec (.rbPush v) s = .next (answer .pushOk t) := by
  simp only [exec, execRbPush, h]

theorem exec_rbPush_of_full (v : Byte) {s : State} (h : s.count.val = CAP) :
    exec (.rbPush v) s = .next (answer (.pushFail .sizeOverrun) s) := by
  simp only [exec, execRbPush, rbPush_of_full v h]

theorem exec_feed_sameOutside {b : Byte} {s u : State} (h : exec (.feed b) s = .next u) : sameOutside s u := by
  rcases feed_cases b s with ⟨-, -, he⟩ | ⟨-, -, he⟩ | ⟨v, -, he⟩ <;> cases he.symm.trans h
  · exact ⟨rfl, rfl, rfl, rfl⟩
  · exact ⟨rfl, rfl, rfl, rfl⟩
  · exact storeByte_sameOutside v (clearEscaping s)

-- ==== The configuration (R31) ====

theorem exec_frame_config {i : Instr} {s t : State} {bytes : List Byte}
    (hf : encode s.config i = some (.frame, bytes)) (h : exec i s = .next t) : t.config = s.config := by
  cases (exec_of_encode_frame hf).symm.trans h
  obtain ⟨hcfg, -⟩ := receiveFrame_sameOutside bytes s
  exact hcfg

theorem exec_config {i : Instr} {s t : State} (h : exec i s = .next t) : t.config = s.config := by
  cases i with
  | electrodeEnable | bulkCapacitance | activeCapacitance | ack | motionCmd | extra | unknown =>
    exact exec_frame_config rfl h
  | unstuff d => cases h; exact (storeByte_sameOutside _ (clearEscaping s)).1
  | data d => cases h; exact (storeByte_sameOutside d s).1
  | feed b => exact (exec_feed_sameOutside h).1
  | encode | encodeMsg => cases h; exact (transmit_sameParser _ s).1.1
  | rbPush v =>
    rcases exec_rbPush v s with ⟨u, hp, he⟩ | ⟨-, he⟩ <;> cases he.symm.trans h
    · obtain ⟨-, -, -, -, -, hcfg, -⟩ := rbPush_ok hp
      exact hcfg
    · rfl
  | rbTrailer =>
    rw [exec_rbTrailer] at h
    split at h <;> cases h
    rfl
  | rbCalcChecksum =>
    rw [exec_rbCalcChecksum] at h
    split at h <;> cases h
    rfl
  | decode => cases (exec_decode _ _ s).symm.trans h; rfl
  | catEncode => cases (exec_catEncode _ s).symm.trans h; rfl
  | esc | flag | reset | fullReset | stuff | ckNew | ckAdd | ckGet | rbClear | rbId | rbPayload | rbIsComplete
  | sizeProbe => cases h; rfl

theorem step_config {s t : State} (h : step s = .next t) : t.config = s.config := by
  unfold step at h
  split at h
  · cases h; rfl
  next i u hf =>
    obtain ⟨rest, hu⟩ := fetch_instr hf
    calc t.config = u.config := exec_config h
      _ = s.config := by rw [hu]
  · cases h

/-- Settles O57: exec keeps the configuration instruction by instruction, and a fetch changes the input alone. -/
theorem configurationIsConstant : Obligations.ConfigurationIsConstant :=
  ⟨fun _ _ _ => exec_config, fun _ _ => step_config⟩

-- ==== The clean state (R27) ====

/-- A completed frame leaves the clean state (R126 to R128). -/
theorem completeFrame_clean (s : State) : (completeFrame s).Clean := by
  obtain ⟨o, h, -⟩ := completeFrame_cases s
  rw [h]
  exact ⟨rfl, rfl⟩

theorem storeByte_clean_of_outcome {v : Byte} {s : State} {o : ParseOutcome}
    (h : (storeByte v s).result = .outcome o) (ho : o ≠ .none) : (storeByte v s).Clean := by
  rcases storeByte_cases v s with ⟨-, he⟩ | ⟨t, -, -, he⟩ | ⟨t, -, -, he⟩ <;> rw [he] at h ⊢
  · exact ⟨rfl, rfl⟩
  · cases h
    exact absurd rfl ho
  · exact completeFrame_clean t

theorem storeByte_clean_of_full (v : Byte) {s : State} (h : s.count.val = CAP) : (storeByte v s).Clean := by
  simp only [storeByte, rbPush_of_full v h]
  exact ⟨rfl, rfl⟩

/-- Settles O24, by the three things FEED can do: an ESC, a FLAG, or the store of a byte. -/
theorem cleanAfterEveryOutcome : Obligations.CleanAfterEveryOutcome := by
  refine ⟨fun b s u h => ⟨Nat.le_of_lt_succ u.count.isLt, ?_⟩, fun s u h => by cases h; exact ⟨rfl, rfl⟩⟩
  rcases feed_cases b s with ⟨hesc, hb, he⟩ | ⟨hesc, hb, he⟩ | ⟨v, hv, he⟩ <;> cases he.symm.trans h
  case inl => -- ESC
    refine ⟨fun o ho hne => ?_, fun _ hflag => ?_, fun _ hstore => ?_⟩
    · cases ho
      exact absurd rfl hne
    · exact absurd (hb.symm.trans hflag) (by decide)
    · simp [hesc, hb] at hstore
  case inr.inl => -- FLAG
    exact ⟨fun _ _ _ => ⟨rfl, rfl⟩, fun _ _ => ⟨rfl, rfl⟩, fun _ _ => ⟨rfl, rfl⟩⟩
  case inr.inr => -- a store
    refine ⟨fun o => storeByte_clean_of_outcome, fun hesc hflag => ?_, fun hfull _ => storeByte_clean_of_full v hfull⟩
    simp [hesc, hflag] at hv

-- ==== Encoder and parser (R29) ====

/-- What a transmission returns depends on the encoder's answer alone. -/
theorem transmit_result (r : Except EncodeRefusal (List Byte)) (s s' : State) :
    (transmit r s).result = (transmit r s').result := by
  cases r <;> rfl

theorem rbPush_output (v : Byte) (out : List Byte) (s : State) :
    rbPush v { s with output := out } = (rbPush v s).map fun t => { t with output := out } := by
  unfold rbPush
  split <;> rfl

theorem completeFrame_output (out : List Byte) (s : State) :
    completeFrame { s with output := out } = { completeFrame s with output := out } := by
  have htr : rbTrailer { s with output := out } = rbTrailer s := rfl
  have hck : rbCalcChecksum { s with output := out } = rbCalcChecksum s := rfl
  have hp : rbPayload { s with output := out } = rbPayload s := rfl
  have hid : idByte { s with output := out } = idByte s := rfl
  simp only [completeFrame, htr, hck, hp, hid]
  split
  · split <;> rfl
  · rfl

theorem storeByte_output (v : Byte) (out : List Byte) (s : State) :
    storeByte v { s with output := out } = { storeByte v s with output := out } := by
  unfold storeByte
  rw [rbPush_output]
  cases rbPush v s with
  | error e => rfl
  | ok t =>
    have hc : rbIsComplete { t with output := out } = rbIsComplete t := rfl
    simp only [Except.map, hc, completeFrame_output]
    split <;> rfl

theorem exec_feed_output {b : Byte} {s u : State} (out : List Byte) (h : exec (.feed b) s = .next u) :
    exec (.feed b) { s with output := out } = .next { u with output := out } := by
  rw [exec_feed] at h ⊢
  cases h
  split_ifs
  · exact congrArg _ (storeByte_output _ out (clearEscaping s))
  · rfl
  · rfl
  · exact congrArg _ (storeByte_output b out s)

/-- Settles O47: both encoder calls are transmissions of a function of the configuration, and no store sees the output. -/
theorem encoderAndParserDoNotInfluenceEachOther : Obligations.EncoderAndParserDoNotInfluenceEachOther := by
  refine ⟨fun s s' t t' i hi hcfg h h' => ?_, fun b s u out h => ⟨?_, exec_feed_output out h⟩⟩
  · rcases hi with ⟨id, p, rfl⟩ | ⟨m, rfl⟩
    all_goals
      cases h
      cases h'
      rw [hcfg]
      exact ⟨transmit_result _ s s', transmit_sameParser _ s⟩
  · obtain ⟨-, -, -, hout⟩ := exec_feed_sameOutside h
    exact hout

-- ==== Stale bytes (R33) ====

namespace State.sameBelow

variable {s t : State}

theorem config (h : s.sameBelow t) : s.config = t.config := by
  obtain ⟨hcfg, -⟩ := h
  exact hcfg

theorem count (h : s.sameBelow t) : s.count = t.count := by
  obtain ⟨-, hcnt, -⟩ := h
  exact hcnt

theorem escaping (h : s.sameBelow t) : s.escaping = t.escaping := by
  obtain ⟨-, -, hesc, -⟩ := h
  exact hesc

theorem ck (h : s.sameBelow t) : s.ck = t.ck := by
  obtain ⟨-, -, -, hck, -⟩ := h
  exact hck

theorem read (h : s.sameBelow t) {k : Nat} (hk : k < s.count.val) : s.buf.read k = t.buf.read k := by
  obtain ⟨-, -, -, -, -, -, -, hread⟩ := h
  exact hread k hk

/-- Runs of bytes held are equal. -/
theorem readRun (h : s.sameBelow t) {i n : Nat} (hn : i + n ≤ s.count.val) :
    s.buf.readRun i n = t.buf.readRun i n :=
  Memory.readRun_congr fun _ _ hk => h.read (by omega)

end State.sameBelow

section
variable {s t : State}

theorem answer_sameBelow {r r' : Result} (hr : r = r') (h : s.sameBelow t) : (answer r s).sameBelow (answer r' t) := by
  obtain ⟨hcfg, hcnt, hesc, hck, hin, hout, -, hread⟩ := h
  exact ⟨hcfg, hcnt, hesc, hck, hin, hout, hr, hread⟩

theorem emit_sameBelow (o : ParseOutcome) (h : s.sameBelow t) : (emit o s).sameBelow (emit o t) :=
  answer_sameBelow rfl h

theorem setEscaping_sameBelow (h : s.sameBelow t) : (setEscaping s).sameBelow (setEscaping t) := by
  obtain ⟨hcfg, hcnt, -, hck, hin, hout, hres, hread⟩ := h
  exact ⟨hcfg, hcnt, rfl, hck, hin, hout, hres, hread⟩

theorem clearEscaping_sameBelow (h : s.sameBelow t) : (clearEscaping s).sameBelow (clearEscaping t) := by
  obtain ⟨hcfg, hcnt, -, hck, hin, hout, hres, hread⟩ := h
  exact ⟨hcfg, hcnt, rfl, hck, hin, hout, hres, hread⟩

theorem rbClear_sameBelow (h : s.sameBelow t) : (rbClear s).sameBelow (rbClear t) := by
  obtain ⟨hcfg, -, hesc, hck, hin, hout, hres, -⟩ := h
  exact ⟨hcfg, rfl, hesc, hck, hin, hout, hres, fun _ hk => absurd hk (Nat.not_lt_zero _)⟩

theorem fullReset_sameBelow (h : s.sameBelow t) : (fullReset s).sameBelow (fullReset t) :=
  clearEscaping_sameBelow (rbClear_sameBelow h)

/-- An accumulator of the component operations that both states write alike. -/
theorem withCk_sameBelow {k k' : Accumulator} (hk : k = k') (h : s.sameBelow t) :
    State.sameBelow { s with ck := k } { t with ck := k' } := by
  obtain ⟨hcfg, hcnt, hesc, -, hin, hout, hres, hread⟩ := h
  exact ⟨hcfg, hcnt, hesc, hk, hin, hout, hres, hread⟩

theorem transmit_sameBelow (r : Except EncodeRefusal (List Byte)) (h : s.sameBelow t) :
    (transmit r s).sameBelow (transmit r t) := by
  obtain ⟨hcfg, hcnt, hesc, hck, hin, hout, -, hread⟩ := h
  cases r with
  | ok bytes => exact ⟨hcfg, hcnt, hesc, hck, hin, congrArg (· ++ bytes) hout, rfl, hread⟩
  | error e => exact ⟨hcfg, hcnt, hesc, hck, hin, hout, rfl, hread⟩

-- The views of the receive buffer read below `count` only.

theorem idByte_of_sameBelow (h : s.sameBelow t) (h1 : 1 ≤ s.count.val) : idByte s = idByte t := h.read h1

theorem rbId_of_sameBelow (h : s.sameBelow t) : rbId s = rbId t := by
  unfold rbId
  rw [← h.count]
  split
  next h1 => rw [idByte_of_sameBelow h h1]
  · rfl

theorem rbPayload_of_sameBelow (h : s.sameBelow t) : rbPayload s = rbPayload t := by
  unfold rbPayload
  rw [← h.count]
  split
  · exact h.readRun (by omega)
  · rfl

theorem rbTrailer_of_sameBelow (h : s.sameBelow t) (h3 : 3 ≤ s.count.val) : rbTrailer s = rbTrailer t := by
  unfold rbTrailer
  rw [← h.count, h.read (by omega), h.read (by omega)]

theorem rbCalcChecksum_of_sameBelow (h : s.sameBelow t) : rbCalcChecksum s = rbCalcChecksum t := by
  unfold rbCalcChecksum
  rw [← h.count, h.readRun (by omega)]

theorem rbIsComplete_of_sameBelow (h : s.sameBelow t) : rbIsComplete s = rbIsComplete t := by
  simp only [rbIsComplete, rbId_of_sameBelow h, rbPayload_of_sameBelow h, h.config, h.count]

/-- A push lands on the same index in both states, and what it writes is the same. -/
theorem rbPush_sameBelow {v : Byte} {s' : State} (hs : s.buf.wf = true) (ht : t.buf.wf = true) (h : s.sameBelow t)
    (hp : rbPush v s = .ok s') : ∃ t', rbPush v t = .ok t' ∧ s'.sameBelow t' := by
  obtain ⟨hlt, hcnt', -, hesc', hres', hcfg', hck', hin', hout'⟩ := rbPush_ok hp
  obtain ⟨t', hq⟩ := rbPush_of_lt v (h.count ▸ hlt)
  obtain ⟨-, gcnt, -, gesc, gres, gcfg, gck, gin, gout⟩ := rbPush_ok hq
  obtain ⟨hcfg, hcnt, hesc, hck, hin, hout, hres, hread⟩ := h
  refine ⟨t', hq, by rw [hcfg', gcfg, hcfg], Fin.ext (by rw [hcnt', gcnt, hcnt]), by rw [hesc', gesc, hesc],
    by rw [hck', gck, hck], by rw [hin', gin, hin], by rw [hout', gout, hout], by rw [hres', gres, hres], fun k hk => ?_⟩
  rw [rbPush_read hs hp, rbPush_read ht hq, ← hcnt]
  split
  · rfl
  · exact hread k (by omega)

theorem completeFrame_sameBelow (h : s.sameBelow t) (h3 : 3 ≤ s.count.val) :
    (completeFrame s).sameBelow (completeFrame t) := by
  unfold completeFrame
  rw [← rbTrailer_of_sameBelow h h3, ← rbCalcChecksum_of_sameBelow h, ← rbPayload_of_sameBelow h,
    ← idByte_of_sameBelow h (by omega), ← h.config]
  have hr := fullReset_sameBelow h
  dsimp only
  split
  · split <;> exact emit_sameBelow _ hr
  · exact emit_sameBelow _ hr

theorem storeByte_sameBelow (v : Byte) (hs : s.buf.wf = true) (ht : t.buf.wf = true) (h : s.sameBelow t) :
    (storeByte v s).sameBelow (storeByte v t) := by
  rcases storeByte_cases v s with ⟨hfull, he⟩ | ⟨s', hp, hc, he⟩ | ⟨s', hp, hc, he⟩ <;> rw [he]
  · rw [storeByte, rbPush_of_full v (h.count ▸ hfull)]
    exact emit_sameBelow _ (fullReset_sameBelow h)
  · obtain ⟨t', hq, h'⟩ := rbPush_sameBelow hs ht h hp
    rw [storeByte_of_incomplete hq (rbIsComplete_of_sameBelow h' ▸ hc)]
    exact emit_sameBelow _ h'
  · obtain ⟨t', hq, h'⟩ := rbPush_sameBelow hs ht h hp
    rw [storeByte_of_complete hq (rbIsComplete_of_sameBelow h' ▸ hc)]
    obtain ⟨-, n, -, hn⟩ := (rbIsComplete_iff s').mp hc
    exact completeFrame_sameBelow h' (by omega)

theorem storeAll_sameBelow (vs : List Byte) {s t : State} (hs : s.buf.wf = true) (ht : t.buf.wf = true)
    (h : s.sameBelow t) : (storeAll vs s).sameBelow (storeAll vs t) := by
  induction vs generalizing s t with
  | nil => exact h
  | cons v vs ih => exact ih (storeByte_wf hs) (storeByte_wf ht) (storeByte_sameBelow v hs ht h)

theorem exec_frame_sameBelow {i : Instr} {bytes : List Byte} {s' : State} (hs : s.buf.wf = true)
    (ht : t.buf.wf = true) (h : s.sameBelow t) (hf : encode s.config i = some (.frame, bytes))
    (hx : exec i s = .next s') : ∃ t', exec i t = .next t' ∧ s'.sameBelow t' := by
  cases (exec_of_encode_frame hf).symm.trans hx
  exact ⟨_, exec_of_encode_frame (h.config ▸ hf), storeAll_sameBelow bytes hs ht (fullReset_sameBelow h)⟩

theorem exec_feed_sameBelow {b : Byte} {s' : State} (hs : s.buf.wf = true) (ht : t.buf.wf = true)
    (h : s.sameBelow t) (hx : exec (.feed b) s = .next s') : ∃ t', exec (.feed b) t = .next t' ∧ s'.sameBelow t' := by
  rw [exec_feed] at hx ⊢
  cases hx
  refine ⟨_, rfl, ?_⟩
  rw [← h.escaping]
  split_ifs
  · exact storeByte_sameBelow _ hs ht (clearEscaping_sameBelow h)
  · exact emit_sameBelow _ (setEscaping_sameBelow h)
  · exact emit_sameBelow _ (fullReset_sameBelow h)
  · exact storeByte_sameBelow b hs ht h

theorem exec_rbPush_sameBelow {v : Byte} {s' : State} (hs : s.buf.wf = true) (ht : t.buf.wf = true)
    (h : s.sameBelow t) (hx : exec (.rbPush v) s = .next s') :
    ∃ t', exec (.rbPush v) t = .next t' ∧ s'.sameBelow t' := by
  rcases exec_rbPush v s with ⟨u, hp, he⟩ | ⟨hfull, he⟩ <;> cases he.symm.trans hx
  · obtain ⟨u', hq, hu⟩ := rbPush_sameBelow hs ht h hp
    exact ⟨_, exec_rbPush_of_ok hq, answer_sameBelow rfl hu⟩
  · exact ⟨_, exec_rbPush_of_full v (h.count ▸ hfull), answer_sameBelow rfl h⟩

end

/-- Settles O60: every instruction reads `buf` through the views, which look below `count` only, and writes it through the push. -/
theorem staleBytesAreUnobservable : Obligations.StaleBytesAreUnobservable := by
  intro i s t s' hs ht h hx
  cases i with
  | electrodeEnable | bulkCapacitance | activeCapacitance | ack | motionCmd | extra | unknown =>
    exact exec_frame_sameBelow hs ht h rfl hx
  | feed b => exact exec_feed_sameBelow hs ht h hx
  | rbPush v => exact exec_rbPush_sameBelow hs ht h hx
  | unstuff d => cases hx; exact ⟨_, rfl, storeByte_sameBelow _ hs ht (clearEscaping_sameBelow h)⟩
  | data d => cases hx; exact ⟨_, rfl, storeByte_sameBelow d hs ht h⟩
  | esc => cases hx; exact ⟨_, rfl, emit_sameBelow _ (setEscaping_sameBelow h)⟩
  | flag => cases hx; exact ⟨_, rfl, emit_sameBelow _ (fullReset_sameBelow h)⟩
  | reset | fullReset => cases hx; exact ⟨_, rfl, answer_sameBelow rfl (fullReset_sameBelow h)⟩
  | rbClear => cases hx; exact ⟨_, rfl, answer_sameBelow rfl (rbClear_sameBelow h)⟩
  | encode | encodeMsg =>
    cases hx
    rw [h.config]
    exact ⟨_, rfl, transmit_sameBelow _ h⟩
  | stuff x => cases hx; exact ⟨_, rfl, answer_sameBelow rfl h⟩
  | ckNew => cases hx; exact ⟨_, rfl, answer_sameBelow rfl (withCk_sameBelow rfl h)⟩
  | ckAdd x => cases hx; exact ⟨_, rfl, answer_sameBelow rfl (withCk_sameBelow (by rw [h.ck]) h)⟩
  | ckGet => cases hx; exact ⟨_, rfl, answer_sameBelow (by rw [h.ck]) h⟩
  | rbId => cases hx; exact ⟨_, rfl, answer_sameBelow (by rw [rbId_of_sameBelow h]) h⟩
  | rbPayload => cases hx; exact ⟨_, rfl, answer_sameBelow (by rw [rbPayload_of_sameBelow h]) h⟩
  | rbIsComplete => cases hx; exact ⟨_, rfl, answer_sameBelow (by rw [rbIsComplete_of_sameBelow h]) h⟩
  | rbTrailer =>
    rw [exec_rbTrailer, ← h.count]
    rw [exec_rbTrailer] at hx
    split_ifs at hx ⊢ with h3
    cases hx
    exact ⟨_, rfl, answer_sameBelow (by rw [rbTrailer_of_sameBelow h h3]) h⟩
  | rbCalcChecksum =>
    rw [exec_rbCalcChecksum, ← h.count]
    rw [exec_rbCalcChecksum] at hx
    split_ifs at hx ⊢
    cases hx
    exact ⟨_, rfl, answer_sameBelow (by rw [rbCalcChecksum_of_sameBelow h]) h⟩
  | sizeProbe id p => cases hx; exact ⟨_, rfl, answer_sameBelow (by rw [h.config]) h⟩
  | decode id p =>
    cases (exec_decode id p s).symm.trans hx
    exact ⟨_, exec_decode id p t, answer_sameBelow (by rw [h.config]) h⟩
  | catEncode m =>
    cases (exec_catEncode m s).symm.trans hx
    exact ⟨_, exec_catEncode m t, answer_sameBelow (by rw [h.config]) h⟩

end Sys2Proof.Machine
end

section
/-! PROOFS. The statements about `buf` as a memory: the stores of the parser write it through the push alone, no reset writes it, and
every step keeps its canonical form. -/

namespace Sys2Proof.Machine

-- ==== What writes `buf` (R46) ====

@[simp] theorem completeFrame_buf (s : State) : (completeFrame s).buf = s.buf := by
  obtain ⟨o, h, -⟩ := completeFrame_cases s
  rw [h, emit_buf, fullReset_buf]

@[simp] theorem transmit_buf (r : Except EncodeRefusal (List Byte)) (s : State) : (transmit r s).buf = s.buf := by
  obtain ⟨⟨-, -, -, hbuf, -⟩, -⟩ := transmit_sameParser r s
  exact hbuf

/-- A store at a full buffer writes no byte (R124). -/
theorem storeByte_buf_of_full (v : Byte) {s : State} (h : s.count.val = CAP) : (storeByte v s).buf = s.buf := by
  simp only [storeByte, rbPush_of_full v h, emit_buf, fullReset_buf]

/-- The completeness test and the completed frame write no byte, so a store leaves `buf` as its push does. -/
theorem storeByte_buf_of_push {v : Byte} {s p : State} (h : rbPush v s = .ok p) : (storeByte v s).buf = p.buf := by
  cases hc : rbIsComplete p
  · rw [storeByte_of_incomplete h hc, emit_buf]
  · rw [storeByte_of_complete h hc, completeFrame_buf]

/-- Settles O19: a reset writes `count` and `escaping` alone, and what follows a store's push writes no byte. -/
theorem resetsWriteNoByteOfTheBuffer : Obligations.ResetsWriteNoByteOfTheBuffer := by
  refine ⟨fun i s t hi h => ?_, fun d s t => ⟨fun h => ?_, fun h => ?_⟩⟩
  · rcases hi with rfl | rfl | rfl | rfl <;> cases h <;> rfl
  · cases h
    exact ⟨storeByte_buf_of_full d, fun _ => storeByte_buf_of_push⟩
  · cases h
    exact ⟨storeByte_buf_of_full (s := clearEscaping s) _,
      fun p hp => storeByte_buf_of_push (p := clearEscaping p) (rbPush_clearEscaping hp)⟩

-- ==== The canonical form of `buf` ====

theorem exec_frame_wf {i : Instr} {s t : State} {bytes : List Byte} (hw : s.buf.wf = true)
    (hf : encode s.config i = some (.frame, bytes)) (h : exec i s = .next t) : t.buf.wf = true := by
  cases (exec_of_encode_frame hf).symm.trans h
  exact storeAll_wf (s := fullReset s) hw

theorem exec_feed_wf {b : Byte} {s t : State} (hw : s.buf.wf = true) (h : exec (.feed b) s = .next t) :
    t.buf.wf = true := by
  rcases feed_cases b s with ⟨-, -, he⟩ | ⟨-, -, he⟩ | ⟨v, -, he⟩ <;> cases he.symm.trans h
  · exact hw
  · exact hw
  · exact storeByte_wf (s := clearEscaping s) hw

theorem exec_rbPush_wf {v : Byte} {s t : State} (hw : s.buf.wf = true) (h : exec (.rbPush v) s = .next t) :
    t.buf.wf = true := by
  rcases exec_rbPush v s with ⟨u, hp, he⟩ | ⟨-, he⟩ <;> cases he.symm.trans h
  · exact rbPush_wf (t := u) hw hp
  · exact hw

/-- No instruction leaves the canonical form: the stores and the push keep it, and every other one leaves `buf` alone. -/
theorem exec_wf {i : Instr} {s t : State} (hw : s.buf.wf = true) (h : exec i s = .next t) : t.buf.wf = true := by
  cases i with
  | electrodeEnable | bulkCapacitance | activeCapacitance | ack | motionCmd | extra | unknown =>
    exact exec_frame_wf hw rfl h
  | feed b => exact exec_feed_wf hw h
  | unstuff d => cases h; exact storeByte_wf (s := clearEscaping s) hw
  | data d => cases h; exact storeByte_wf hw
  | rbPush v => exact exec_rbPush_wf hw h
  | encode | encodeMsg => cases h; rwa [transmit_buf]
  | rbTrailer =>
    rw [exec_rbTrailer] at h
    split at h <;> cases h
    exact hw
  | rbCalcChecksum =>
    rw [exec_rbCalcChecksum] at h
    split at h <;> cases h
    exact hw
  | decode => cases (exec_decode _ _ s).symm.trans h; exact hw
  | catEncode => cases (exec_catEncode _ s).symm.trans h; exact hw
  | esc | flag | reset | fullReset | stuff | ckNew | ckAdd | ckGet | rbClear | rbId | rbPayload | rbIsComplete
  | sizeProbe => cases h; exact hw

theorem step_wf {s t : State} (hw : s.buf.wf = true) (h : step s = .next t) : t.buf.wf = true := by
  unfold step at h
  split at h
  · cases h; exact hw
  next i u hf =>
    obtain ⟨rest, rfl⟩ := fetch_instr hf
    exact exec_wf (s := { s with input := rest }) hw h
  · cases h

/-- Settles O56: exec keeps the canonical form instruction by instruction, and the configuration is constant. -/
theorem stepKeepsInvariant : Obligations.StepKeepsInvariant := by
  rintro s t ⟨hw, hv⟩ h
  exact ⟨step_wf hw h, step_config h ▸ hv⟩

end Sys2Proof.Machine
end

section
/-! PROOFS. The wire: a FRAME row as its stuffed bytes, a byte of the stream as a symbol, and a stream in the input as repeated
FEED. -/

namespace Sys2Proof.Machine

-- ==== A FRAME row and its wire bytes (R81, log 9) ====

theorem encode_frame_ne_nil {c : Config} {i : Instr} {bytes : List Byte} (h : encode c i = some (.frame, bytes)) :
    bytes ≠ [] := by
  cases i <;> cases h <;> simp

theorem feedAll_cons {b : Byte} {bs : List Byte} {s t : State} (h : exec (.feed b) s = .next t) :
    feedAll (b :: bs) s = (t.result :: (feedAll bs t).1, (feedAll bs t).2) := by
  simp only [feedAll, h]

/-- Settles O31: the flag brings about the clean state, and from there the stuffed bytes are the stores of the frame's bytes. -/
theorem frameInstructionIsItsWireBytesFed : Obligations.FrameInstructionIsItsWireBytesFed := by
  intro i bytes s hf hesc
  have hfed : (feedAll (flagByte :: stuffAll bytes) s).2 = receiveFrame bytes s := by
    rw [feedAll_cons (feed_flag hesc), feedAll_stuffAll_state bytes (s := emit .none (fullReset s)) rfl]
    exact storeAll_answer (encode_frame_ne_nil hf) _ _
  rw [exec_of_encode_frame hf, hfed]

-- ==== A byte is one of four symbols (R64) ====

@[simp] theorem decodeSymbol_escaping (b : Byte) : decodeSymbol true b = .unstuff b := rfl

@[simp] theorem decodeSymbol_esc : decodeSymbol false escByte = .esc := rfl

@[simp] theorem decodeSymbol_flag : decodeSymbol false flagByte = .flag := rfl

theorem isControl_eq_false_iff {b : Byte} : isControl b = false ↔ b ≠ escByte ∧ b ≠ flagByte := by
  simp only [isControl, Bool.or_eq_false_iff, beq_eq_false_iff_ne]

theorem decodeSymbol_of_not_control {b : Byte} (h : isControl b = false) : decodeSymbol false b = .data b := by
  obtain ⟨h1, h2⟩ := isControl_eq_false_iff.mp h
  simp only [decodeSymbol, Bool.false_eq_true, if_false, if_neg h1, if_neg h2]

/-- FEED runs the symbol the byte is (R120 steps 1 to 3). -/
theorem exec_feed_eq_decodeSymbol (b : Byte) (s : State) : exec (.feed b) s = exec (decodeSymbol s.escaping b) s := by
  rw [exec_feed]
  unfold decodeSymbol
  split_ifs <;> rfl

/-- Settles O15: one symbol for each row of table R64. -/
theorem feedRunsTheSymbolTheByteIs : Obligations.FeedRunsTheSymbolTheByteIs := by
  intro b s
  have hrun {i : Instr} (hi : decodeSymbol s.escaping b = i) :
      decodeSymbol s.escaping b = i ∧ exec (.feed b) s = exec i s := ⟨hi, hi ▸ exec_feed_eq_decodeSymbol b s⟩
  refine ⟨fun he => hrun ?_, fun he hb => hrun ?_, fun he hb => hrun ?_, fun he h1 h2 => hrun ?_⟩ <;> rw [he]
  · exact decodeSymbol_escaping b
  · rw [hb]; exact decodeSymbol_esc
  · rw [hb]; exact decodeSymbol_flag
  · exact decodeSymbol_of_not_control (isControl_eq_false_iff.mpr ⟨h1, h2⟩)

/-- Every byte reads as a symbol whose encoding is that byte (table R64). -/
theorem decodeSymbol_wf_encode (c : Config) (esc : Bool) (b : Byte) :
    (decodeSymbol esc b).wf c = true ∧ encode c (decodeSymbol esc b) = some (.symbol esc, [b]) := by
  cases esc with
  | true => exact ⟨rfl, rfl⟩
  | false =>
    by_cases h1 : b = escByte
    · subst h1; exact ⟨rfl, rfl⟩
    by_cases h2 : b = flagByte
    · subst h2; exact ⟨rfl, rfl⟩
    have hb := isControl_eq_false_iff.mpr ⟨h1, h2⟩
    rw [decodeSymbol_of_not_control hb]
    exact ⟨by simp [Instr.wf, hb], rfl⟩

-- ==== One step of the stream (R81, logs 6 and 9) ====

theorem requeue_eq (left : List Byte) (rest : List Request) :
    requeue left rest = if left = [] then rest else .frameBytes left :: rest := by
  cases left <;> rfl

theorem step_frameBytes {s : State} {bytes left : List Byte} {rest : List Request} {i : Instr}
    (h : s.input = .frameBytes bytes :: rest) (hd : decodeFrame s.config bytes = .ok (i, left)) :
    step s = exec i { s with input := if left = [] then rest else .frameBytes left :: rest } := by
  simp only [step, fetch, h, hd, requeue_eq]

/-- Settles O51, by the head of the input. -/
theorem stepRunsTheDecodedInstruction : Obligations.StepRunsTheDecodedInstruction := by
  refine ⟨fun s b rest i h hd => ?_, fun s bytes left rest i h hd => step_frameBytes h hd,
    fun s rest i h hf => step_call h hf, fun s h => step_idle h⟩
  cases hd
  exact ⟨(decodeSymbol_wf_encode _ _ _).1, (step_wireByte h).trans (exec_feed_eq_decodeSymbol b _)⟩

-- ==== The stores do not see the input ====

/-- What the parser emits for the catalog's answer (R127). -/
def outcomeOfDecode : Except ParseError Message → ParseOutcome
  | .ok m => .msg m
  | .error e => .err e

/-- The outcome of a completed frame (R126 to R128), a function of the views of the buffer and the catalog. -/
def frameOutcome (s : State) : ParseOutcome :=
  if rbTrailer s = rbCalcChecksum s then outcomeOfDecode (decodeMessage s.config (idByte s) (rbPayload s))
  else .err (.checksumError (u16le (rbTrailer s).1 (rbTrailer s).2) (u16le (rbCalcChecksum s).1 (rbCalcChecksum s).2))

theorem completeFrame_eq (s : State) : completeFrame s = emit (frameOutcome s) (fullReset s) := by
  unfold completeFrame frameOutcome
  dsimp only
  split
  · cases decodeMessage s.config (idByte s) (rbPayload s) <;> rfl
  · rfl

theorem rbPush_input (v : Byte) (q : List Request) (s : State) :
    rbPush v { s with input := q } = (rbPush v s).map fun t => { t with input := q } := by
  unfold rbPush
  split <;> rfl

theorem storeByte_input (v : Byte) (q : List Request) (s : State) :
    storeByte v { s with input := q } = { storeByte v s with input := q } := by
  unfold storeByte
  rw [rbPush_input]
  cases rbPush v s with
  | error e => rfl
  | ok t =>
    have hc : rbIsComplete { t with input := q } = rbIsComplete t := rfl
    have ho : frameOutcome { t with input := q } = frameOutcome t := rfl
    simp only [Except.map, hc, completeFrame_eq, ho]
    split <;> rfl

theorem exec_feed_input {b : Byte} {s t : State} (q : List Request) (h : exec (.feed b) s = .next t) :
    exec (.feed b) { s with input := q } = .next { t with input := q } := by
  rw [exec_feed] at h ⊢
  cases h
  split_ifs
  · exact congrArg _ (storeByte_input _ q (clearEscaping s))
  · rfl
  · rfl
  · exact congrArg _ (storeByte_input b q s)

-- ==== A stream in the input is repeated FEED (R81) ====

/-- One step takes the front byte off the stream, feeds it, and leaves the rest of the stream standing. -/
theorem step_withWire {b : Byte} {s t : State} (bs : List Byte) (h : exec (.feed b) s = .next t) :
    step (s.withWire (b :: bs)) = .next (t.withWire bs) := by
  obtain ⟨-, -, hin, -⟩ := exec_feed_sameOutside h
  calc step (s.withWire (b :: bs)) = exec (.feed b) (s.withWire bs) := step_wireByte rfl
    _ = .next { t with input := bs.map Request.wireByte ++ s.input } := exec_feed_input _ h
    _ = .next (t.withWire bs) := by rw [← hin, State.withWire]

/-- After the whole stream, the state FEED of its bytes leaves. -/
theorem run_withWire (bytes : List Byte) (s : State) :
    Host.Core.run Sys2Proof.core bytes.length (s.withWire bytes) = .next (feedAll bytes s).2 := by
  induction bytes generalizing s with
  | nil => rfl
  | cons b bs ih =>
    have hx := exec_feed b s
    rw [feedAll_cons hx, List.length_cons, run_of_step _ (step_withWire bs hx)]
    exact ih _

/-- After its byte `k`, the return value is the outcome FEED gives that byte. -/
theorem run_withWire_result (bytes : List Byte) (s : State) {k : Nat} (hk : k < bytes.length) :
    ∃ t : State, Host.Core.run Sys2Proof.core (k + 1) (s.withWire bytes) = .next t ∧
      (feedAll bytes s).1[k]? = some t.result := by
  induction bytes generalizing s k with
  | nil => cases hk
  | cons b bs ih =>
    have hx := exec_feed b s
    rw [feedAll_cons hx, run_of_step _ (step_withWire bs hx)]
    cases k with
    | zero => exact ⟨_, rfl, rfl⟩
    | succ k => exact ih _ (Nat.lt_of_succ_lt_succ hk)

/-- Settles O52, by induction over the stream. -/
theorem wireStreamIsRepeatedFeed : Obligations.WireStreamIsRepeatedFeed :=
  fun s bytes => ⟨run_withWire bytes s, fun _ => run_withWire_result bytes s⟩

end Sys2Proof.Machine
end

section
/-! PROOFS. Decoder against encoder. Both are described by one layout of a FRAME row, `id payload trailer` (R60): the encoder writes the
instruction `frameOf` makes of it as these bytes, and the decoder reads `frameOf` of it from them. -/

namespace Sys2Proof

open Machine

-- ==== The payload length the probe gives (R75) ====

theorem byteAt_append_left {p : List Byte} (q : List Byte) {k : Nat} (h : k < p.length) :
    byteAt (p ++ q) k = byteAt p k := by
  simp only [byteAt, List.getD_append _ _ _ _ h]

/-- A probe that gives the payload's own length does not look behind the payload. -/
theorem sizeProbe_append {c : Config} {id : Byte} {p : List Byte} (h : sizeProbe c id p = .known p.length)
    (q : List Byte) : sizeProbe c id (p ++ q) = .known p.length := by
  by_cases hk : kindOf c id = .bulkCapacitance
  · rw [sizeProbe_of_bulk hk] at h ⊢
    split_ifs at h with h2
    rw [byteAt_append_left q (by omega), if_neg (by simp; omega)]
    exact h
  · rw [(sizeProbe_of_not_bulk hk (p ++ q) p).1, h]

/-- Conversely, a payload's own length, probed with bytes behind it, stands in the payload. -/
theorem sizeProbe_of_append {c : Config} {id : Byte} {p q : List Byte}
    (h : sizeProbe c id (p ++ q) = .known p.length) : sizeProbe c id p = .known p.length := by
  by_cases hk : kindOf c id = .bulkCapacitance
  · rw [sizeProbe_of_bulk hk] at h ⊢
    split_ifs at h with h2
    have hp : 2 ≤ p.length := by injection h; omega
    rw [byteAt_append_left q (by omega)] at h
    rw [if_neg (by omega)]
    exact h
  · rw [(sizeProbe_of_not_bulk hk p (p ++ q)).1, h]

-- ==== The decoder on a frame's bytes (R60, R69) ====

/-- What the decoder reads: an id, as many payload bytes as the probe says, and a trailer, with the rest left over. -/
theorem decodeFrame_eq_ok_iff (c : Config) (bytes rest : List Byte) (i : Instr) :
    decodeFrame c bytes = .ok (i, rest) ↔
      ∃ id p ckA ckB, bytes = id :: p ++ [ckA, ckB] ++ rest ∧ sizeProbe c id p = .known p.length ∧
        i = frameOf c id p ckA ckB := by
  constructor
  · intro h
    unfold decodeFrame at h
    split at h
    · cases h
    next id body =>
      split at h
      · cases h
      next n hn =>
        split at h
        next ckA ckB rest' hd =>
          cases h
          have hbody : body = body.take n ++ ckA :: ckB :: rest := by rw [← hd, List.take_append_drop]
          have hlen : (body.take n).length = n := by
            have := congrArg List.length hd
            simp at this ⊢
            omega
          refine ⟨id, body.take n, ckA, ckB, by simpa using hbody, ?_, rfl⟩
          exact sizeProbe_of_append (q := ckA :: ckB :: rest) (by rw [← hbody, hn, hlen])
        · cases h
  · rintro ⟨id, p, ckA, ckB, rfl, hp, rfl⟩
    simp [decodeFrame, sizeProbe_append hp]

-- ==== The encoder on a frame's parts ====

/-- The id a FRAME row of this kind carries: a parameter for the five kinds, else its own (table R69). -/
def kindId (c : Config) (k : Kind) (id : Byte) : Byte :=
  match k with
  | .electrodeEnable => c.idElectrodeEnable
  | .bulkCapacitance => c.idBulkCapacitance
  | .activeCapacitance => c.idActiveCapacitance
  | .ack => c.idAck
  | .motionCmd => c.idMotionCmd
  | .extra _ => id
  | .unknown => id

/-- The dispatch selects a kind by the id its rows carry (R150). -/
theorem kindId_of_kindOf {c : Config} {id : Byte} {k : Kind} (h : kindOf c id = k) : kindId c k id = id := by
  subst h
  unfold kindOf
  split_ifs with h1 h2 h3 h4 h5
  · exact h1.symm
  · exact h2.symm
  · exact h3.symm
  · exact h4.symm
  · exact h5.symm
  · split <;> rfl

/-- Four bytes are the two little-endian fields read at offsets 0 and 2 (R76). -/
theorem halfBytes_halfAt {p : List Byte} (h : 4 = p.length) : halfBytes (halfAt p 0) ++ halfBytes (halfAt p 2) = p := by
  match p, h with
  | [b0, b1, b2, b3], _ => simp [halfBytes, halfAt, byteAt]

/-- At most one byte is the optional byte at its head. -/
theorem head?_toList {p : List Byte} (h : p.length ≤ 1) : p.head?.toList = p := by
  match p, h with
  | [], _ => rfl
  | [_], _ => rfl

/-- A bulk payload of the probed length: start index, count byte, and as many fields as it says (R158). -/
theorem bulk_payload {c : Config} {id : Byte} {p : List Byte} (hk : kindOf c id = .bulkCapacitance)
    (h : sizeProbe c id p = .known p.length) :
    ∃ startIndex cnt values, p = startIndex :: cnt :: halvesBytes values ∧ values.length = cnt.toNat := by
  rw [sizeProbe_of_bulk hk] at h
  match p, h with
  | startIndex :: cnt :: l, h =>
    have hl : l.length = 2 * cnt.toNat := by simp [byteAt] at h; omega
    obtain ⟨hv, hb⟩ := halvesOf_of_length hl
    exact ⟨startIndex, cnt, halvesOf l, by rw [hb], hv⟩

/-- A payload of the probed length makes a well-formed instruction, and the encoder gives its parts back. -/
theorem frameOf_wf_encode {c : Config} {id : Byte} {p : List Byte} (ckA ckB : Byte)
    (h : sizeProbe c id p = .known p.length) :
    (frameOf c id p ckA ckB).wf c = true ∧
      encode c (frameOf c id p ckA ckB) = some (.frame, id :: p ++ [ckA, ckB]) := by
  cases hk : kindOf c id with
  | electrodeEnable =>
    have hid : c.idElectrodeEnable = id := kindId_of_kindOf hk
    have hlen : 16 = p.length := by simpa [sizeProbe, hk] using h
    simp [frameOf, hk, Instr.wf, encode, hid, ← hlen]
  | bulkCapacitance =>
    have hid : c.idBulkCapacitance = id := kindId_of_kindOf hk
    obtain ⟨startIndex, cnt, values, rfl, hv⟩ := bulk_payload hk h
    simp [frameOf, hk, Instr.wf, encode, hid, byteAt, hv]
  | activeCapacitance =>
    have hid : c.idActiveCapacitance = id := kindId_of_kindOf hk
    have hlen : 4 = p.length := by simpa [sizeProbe, hk] using h
    simp only [frameOf, hk, Instr.wf, encode, hid, List.cons_append, halfBytes_halfAt hlen, true_and]
  | ack =>
    have hid : c.idAck = id := kindId_of_kindOf hk
    have hlen : c.ackLen.val = p.length := by simpa [sizeProbe, hk] using h
    simp [frameOf, hk, Instr.wf, encode, hid, hlen, head?_toList (p := p) (by omega)]
  | motionCmd =>
    have hid : c.idMotionCmd = id := kindId_of_kindOf hk
    have hlen : 4 = p.length := by simpa [sizeProbe, hk] using h
    simp only [frameOf, hk, Instr.wf, encode, hid, List.cons_append, halfBytes_halfAt hlen, true_and]
  | extra n =>
    have hlen : n = p.length := by simpa [sizeProbe, hk] using h
    simp [frameOf, hk, Instr.wf, encode, hlen]
  | unknown =>
    have hlen : 0 = p.length := by simpa [sizeProbe, hk] using h
    simp [frameOf, hk, Instr.wf, encode, List.length_eq_zero_iff.mp hlen.symm]

/-- A well-formed FRAME instruction is what `frameOf` makes of the parts the encoder writes. -/
theorem encode_frame_of_wf {c : Config} {i : Instr} {bytes : List Byte} (hc : c.Valid) (hw : i.wf c = true)
    (he : encode c i = some (.frame, bytes)) :
    ∃ id p ckA ckB, bytes = id :: p ++ [ckA, ckB] ∧ sizeProbe c id p = .known p.length ∧
      i = frameOf c id p ckA ckB := by
  obtain ⟨hbulk, hactive, hack, hmotion, -⟩ := kindOf_valid hc
  cases i with
  | electrodeEnable mask ckA ckB =>
    cases he
    have hm : mask.length = 16 := by simpa [Instr.wf] using hw
    exact ⟨_, mask, ckA, ckB, rfl, by simp [sizeProbe, hm], by simp [frameOf]⟩
  | bulkCapacitance startIndex cnt values ckA ckB =>
    cases he
    have hv : values.length = cnt.toNat := by simpa [Instr.wf] using hw
    exact ⟨_, startIndex :: cnt :: halvesBytes values, ckA, ckB, rfl,
      by simp [sizeProbe, hbulk, byteAt, hv]; omega, by simp [frameOf, hbulk, byteAt]⟩
  | activeCapacitance baseline measurement ckA ckB =>
    cases he
    exact ⟨_, halfBytes baseline ++ halfBytes measurement, ckA, ckB, rfl, by simp [sizeProbe, hactive, halfBytes],
      by simp [frameOf, hactive, halfAt, byteAt, halfBytes]⟩
  | ack d ckA ckB =>
    cases he
    have hd : d.toList.length = c.ackLen.val := by simpa [Instr.wf] using hw
    exact ⟨_, d.toList, ckA, ckB, rfl, by simp [sizeProbe, hack, hd], by cases d <;> simp [frameOf, hack]⟩
  | motionCmd steps period ckA ckB =>
    cases he
    exact ⟨_, halfBytes steps ++ halfBytes period, ckA, ckB, rfl, by simp [sizeProbe, hmotion, halfBytes],
      by simp [frameOf, hmotion, halfAt, byteAt, halfBytes]⟩
  | extra id p ckA ckB =>
    cases he
    have hk : kindOf c id = .extra p.length := by simpa [Instr.wf] using hw
    exact ⟨id, p, ckA, ckB, rfl, by simp [sizeProbe, hk], by simp [frameOf, hk]⟩
  | unknown id ckA ckB =>
    cases he
    have hk : kindOf c id = .unknown := by simpa [Instr.wf] using hw
    exact ⟨id, [], ckA, ckB, rfl, by simp [sizeProbe, hk], by simp [frameOf, hk]⟩
  | _ => cases he

-- ==== The two directions ====

/-- A SYMBOL's one byte reads as that symbol under the level the encoder names (R64). -/
theorem decodeSymbol_of_encode {c : Config} {i : Instr} {esc : Bool} {bytes : List Byte} (hw : i.wf c = true)
    (he : encode c i = some (.symbol esc, bytes)) : ∃ b, bytes = [b] ∧ decodeSymbol esc b = i := by
  cases i with
  | unstuff d => cases he; exact ⟨_, rfl, rfl⟩
  | esc => cases he; exact ⟨_, rfl, rfl⟩
  | flag => cases he; exact ⟨_, rfl, rfl⟩
  | data d => cases he; exact ⟨_, rfl, decodeSymbol_of_not_control (by simpa [Instr.wf] using hw)⟩
  | _ => cases he

/-- Settles O53, by the level the encoder names. -/
theorem decodeOfEncodeIsTheInstruction : Obligations.DecodeOfEncodeIsTheInstruction := by
  intro c i l bytes rest hc hw he
  cases l with
  | symbol esc =>
    obtain ⟨b, rfl, rfl⟩ := decodeSymbol_of_encode hw he
    rfl
  | frame =>
    obtain ⟨id, p, ckA, ckB, rfl, hp, rfl⟩ := encode_frame_of_wf hc hw he
    exact (decodeFrame_eq_ok_iff c _ rest _).mpr ⟨id, p, ckA, ckB, rfl, hp, rfl⟩

/-- Settles O54, by the level the bytes are read at. -/
theorem decodedBytesAreTheEncoding : Obligations.DecodedBytesAreTheEncoding := by
  intro c i l bytes rest h
  cases l with
  | symbol esc =>
    cases bytes with
    | nil => cases h
    | cons b bs =>
      cases h
      obtain ⟨hw, he⟩ := decodeSymbol_wf_encode c esc b
      exact ⟨hw, [b], he, rfl⟩
  | frame =>
    obtain ⟨id, p, ckA, ckB, rfl, hp, rfl⟩ := (decodeFrame_eq_ok_iff c bytes rest i).mp h
    obtain ⟨hw, he⟩ := frameOf_wf_encode ckA ckB hp
    exact ⟨hw, _, he, rfl⟩

end Sys2Proof
end

section
/-! PROOFS. Whole frames: one that fits the buffer is answered on its last byte, one that does not is dropped by its 129th. -/

namespace Sys2Proof.Machine

-- ==== What a buffer that holds a whole frame answers (R126 to R128) ====

section
variable {s t : State} {id ckA ckB : Byte} {l p : List Byte}

theorem Holding.rbTrailer (h : Holding s (l ++ [ckA, ckB]) t) : rbTrailer t = (ckA, ckB) := by
  have hc : t.count.val = l.length + 2 := by simpa using h.count
  simp [Machine.rbTrailer, hc, h.read, byteAt]

theorem Holding.rbCalcChecksum (h : Holding s (l ++ [ckA, ckB]) t) : rbCalcChecksum t = cksum l := by
  have hc : t.count.val = l.length + 2 := by simpa using h.count
  rw [Machine.rbCalcChecksum, hc, h.readRun (by simp)]
  simp

theorem Holding.frameOutcome (h : Holding s (id :: (p ++ [ckA, ckB])) t) :
    frameOutcome t =
      if (ckA, ckB) = cksum (id :: p) then outcomeOfDecode (decodeMessage s.config id p)
      else .err (.checksumError (u16le ckA ckB) (u16le (cksum (id :: p)).1 (cksum (id :: p)).2)) := by
  have hp : Machine.rbPayload t = p := by simp [h.rbPayload]
  obtain ⟨hcfg, -⟩ := h.outside
  rw [Machine.frameOutcome, Holding.rbTrailer (l := id :: p) h, Holding.rbCalcChecksum (l := id :: p) h, hp, h.idByte, hcfg]

end

theorem maxPayload_eq : maxPayload = 125 := rfl

theorem probeFits_of_probe {c : Config} {id : Byte} {p : List Byte} (h : sizeProbe c id p = .known p.length) :
    ProbeFits c id p := by
  by_cases hk : kindOf c id = .bulkCapacitance
  · exact probeFits_of_bulk hk h
  · exact probeFits_of_not_bulk hk h

/-- A payload of the probed length under a known id is decoded by its kind (R152). -/
theorem decodeMessage_of_probe {c : Config} {id : Byte} {p : List Byte} {k : Kind} (hk : kindOf c id = k)
    (hne : k ≠ .unknown) (hp : sizeProbe c id p = .known p.length) : decodeMessage c id p = decodeKind k id p := by
  simp [decodeMessage, hp, hk, hne]

/-- A whole frame that fits the buffer, from every state: the catalog's answer, or ChecksumError. -/
theorem frameAnswer_of_probe {i : Instr} {s : State} {id ckA ckB : Byte} {p : List Byte}
    (he : encode s.config i = some (.frame, id :: p ++ [ckA, ckB])) (hw : s.buf.wf = true)
    (hl : p.length ≤ maxPayload) (hp : sizeProbe s.config id p = .known p.length) :
    FrameAnswer i (id :: p) ckA ckB (outcomeOfDecode (decodeMessage s.config id p)) s := by
  obtain ⟨t, ht, hx⟩ := storeAll_frame (s := fullReset s) ckA ckB rfl hw hl (probeFits_of_probe hp)
  have hres : (completeFrame t).result = .outcome (frameOutcome t) := by rw [completeFrame_eq, emit_result]
  rw [ht.frameOutcome] at hres
  refine ⟨completeFrame t, ?_, completeFrame_clean t, ?_, fun k => ?_, fun hck => ?_, fun hck => ?_⟩
  · rw [exec_of_encode_frame he, ← hx]
    rfl
  · rw [← hx]
    exact storeAll_sameOutside _ (fullReset s)
  · simpa [Nat.lt_succ_iff] using ht.read k
  · rw [hres, if_pos hck]
    rfl
  · refine ⟨_, _, by rw [hres, if_neg hck], fun heq => hck ?_, u16le_toNat _ _, u16le_toNat _ _⟩
    obtain ⟨ha, hb⟩ := u16le_injective heq
    rw [ha, hb]

/-- A whole frame of a known kind that fits the buffer: its typed message, or ChecksumError. -/
theorem frameAnswer_msg {i : Instr} {s : State} {id ckA ckB : Byte} {p : List Byte} {k : Kind} {m : Message}
    (he : encode s.config i = some (.frame, id :: p ++ [ckA, ckB])) (hw : s.buf.wf = true)
    (hk : kindOf s.config id = k) (hl : p.length ≤ maxPayload) (hp : sizeProbe s.config id p = .known p.length)
    (hm : decodeKind k id p = .ok m) : FrameAnswer i (id :: p) ckA ckB (.msg m) s := by
  have hne : k ≠ .unknown := by
    rintro rfl
    cases hm
  have h := frameAnswer_of_probe he hw hl hp
  rwa [decodeMessage_of_probe hk hne hp, hm] at h

/-- Settles O27: each kind's payload has the probed length, and the kind's decode gives the message of the same fields. -/
theorem fixedSizeFramesAreDelivered : Obligations.FixedSizeFramesAreDelivered := by
  rintro s ckA ckB ⟨hw, hv⟩
  obtain ⟨-, hactive, hack, hmotion, hextra⟩ := kindOf_valid hv
  refine ⟨fun mask hlen => ?_, fun baseline measurement => ?_, fun d hlen => ?_, fun steps period => ?_,
    fun id bytes hmem => ?_⟩
  · exact frameAnswer_msg rfl hw (kindOf_electrodeEnable _) (by simp [hlen, maxPayload_eq])
      (by simp [sizeProbe, hlen]) rfl
  · exact frameAnswer_msg rfl hw hactive (by simp [maxPayload_eq]) (by simp [sizeProbe, hactive])
      (by simp [decodeKind, decodeActiveCapacitance, halfAt, byteAt])
  · exact frameAnswer_msg rfl hw hack (by rw [hlen, maxPayload_eq]; omega) (by simp [sizeProbe, hack, hlen])
      (by simp [decodeKind, decodeAck])
  · exact frameAnswer_msg rfl hw hmotion (by simp [maxPayload_eq]) (by simp [sizeProbe, hmotion])
      (by simp [decodeKind, decodeMotionCmd, halfAt, byteAt])
  · exact frameAnswer_msg rfl hw (hextra _ hmem) (hv.2 _ hmem) (by simp [sizeProbe, hextra _ hmem]) rfl

/-- The probe of a bulk payload is its length (R157). -/
theorem sizeProbe_bulk_payload {c : Config} (hc : c.Valid) (startIndex : Byte) {cnt : Byte} {values : List Half}
    (hv : values.length = cnt.toNat) :
    sizeProbe c c.idBulkCapacitance (startIndex :: cnt :: halvesBytes values) =
      .known (startIndex :: cnt :: halvesBytes values).length := by
  obtain ⟨hbulk, -⟩ := kindOf_valid hc
  simp [sizeProbe, hbulk, byteAt, hv]
  omega

/-- Settles O28: a bulk payload of 61 readings or fewer fits the buffer, and its fields come back (R158). -/
theorem receivableBulkFramesAreDelivered : Obligations.ReceivableBulkFramesAreDelivered := by
  rintro s startIndex cnt values ckA ckB ⟨hw, hc⟩ hv hcnt
  obtain ⟨hbulk, -⟩ := kindOf_valid hc
  exact frameAnswer_msg rfl hw hbulk (by simp [maxPayload_eq, hv]; omega) (sizeProbe_bulk_payload hc startIndex hv)
    (by simp [decodeKind, decodeBulkCapacitance, byteAt])

-- ==== A frame longer than the buffer (R79, R108) ====

theorem storeByte_of_full (v : Byte) {s : State} (h : s.count.val = CAP) :
    storeByte v s = emit .none (fullReset s) := by
  simp only [storeByte, rbPush_of_full v h]

/-- A frame too long for the buffer is complete at none of its bytes the buffer can hold (R108 (a)). -/
theorem Holding.incomplete_of_long {s t : State} {id : Byte} {l p q : List Byte} (hf : ProbeFits s.config id p)
    (hlong : maxPayload < p.length) (hl : l <+: id :: (p ++ q)) (h : Holding s l t) : rbIsComplete t = false := by
  by_contra hc
  rw [Bool.not_eq_false] at hc
  cases l with
  | nil =>
    obtain ⟨h1, -⟩ := (rbIsComplete_iff t).mp hc
    simp [h.count] at h1
  | cons x l =>
    obtain ⟨rfl, hbody⟩ := List.cons_prefix_cons.mp hl
    obtain ⟨n, hn, hlen⟩ := h.complete_iff.mp hc
    have hcount : l.length < CAP := by simpa [h.count] using t.count.isLt
    have hcap : CAP = maxPayload + 3 := rfl
    have htake : l.take (l.length - 2) = p.take n := by
      have hpre : l.take n <+: p := List.prefix_of_prefix_length_le ((List.take_prefix _ _).trans hbody)
        (List.prefix_append p q) (by simp; omega)
      rw [show l.length - 2 = n by omega, List.prefix_iff_eq_take.mp hpre, List.length_take_of_le (by omega)]
    rw [htake] at hn
    rcases hf.2 n with hp | hp <;> cases hn.symm.trans hp
    omega

/-- Bytes no part of which completes the buffer are held, and answer nothing (R125). -/
theorem storeAll_holding {s : State} {l : List Byte} (hc : s.count.val = 0) (hw : s.buf.wf = true)
    (hl : l.length ≤ CAP) (hn : ∀ l' t, l' <+: l → Holding s l' t → rbIsComplete t = false) :
    Holding s l (storeAll l s) ∧ (l ≠ [] → (storeAll l s).result = .outcome .none) := by
  induction l using List.reverseRecOn with
  | nil => exact ⟨Holding.nil hc hw, fun h => absurd rfl h⟩
  | append_singleton l v ih =>
    have hlt : l.length < CAP := by simpa using hl
    obtain ⟨hold, -⟩ := ih hlt.le fun l' t hp => hn l' t (hp.trans (List.prefix_append _ _))
    obtain ⟨t, hpush, ht⟩ := hold.push hlt v
    rw [storeAll_snoc, storeByte_of_incomplete hpush (hn _ t (List.prefix_refl _) ht)]
    exact ⟨ht.emit _, fun _ => rfl⟩

/-- A frame too long for the buffer: its first 128 bytes fill it silently, and the 129th leaves the clean state (R124). -/
theorem storeAll_of_long {s : State} {id : Byte} {p q : List Byte} (hc : s.count.val = 0) (hw : s.buf.wf = true)
    (hf : ProbeFits s.config id p) (hlong : maxPayload < p.length) (hq : 2 ≤ q.length) :
    (storeAll ((id :: (p ++ q)).take (CAP + 1)) s).Clean ∧
      ∀ k, k < CAP + 1 → (storeAll ((id :: (p ++ q)).take (k + 1)) s).result = .outcome .none := by
  have hcap : CAP = maxPayload + 3 := rfl
  have hlen : CAP < (id :: (p ++ q)).length := by simp; omega
  have hold {k : Nat} (hk : k ≤ CAP) := storeAll_holding (l := (id :: (p ++ q)).take k) hc hw (by simp [hk])
    fun l t hl => Holding.incomplete_of_long hf hlong (hl.trans (List.take_prefix _ _))
  have hfull : (storeAll ((id :: (p ++ q)).take CAP) s).count.val = CAP := by
    rw [(hold (le_refl CAP)).1.count, List.length_take_of_le hlen.le]
  have hlast : storeAll ((id :: (p ++ q)).take (CAP + 1)) s =
      emit .none (fullReset (storeAll ((id :: (p ++ q)).take CAP) s)) := by
    rw [List.take_succ_eq_append_getElem hlen, storeAll_snoc, storeByte_of_full _ hfull]
  refine ⟨by rw [hlast]; exact ⟨rfl, rfl⟩, fun k hk => ?_⟩
  rcases Nat.lt_succ_iff_lt_or_eq.mp hk with hk | rfl
  · exact (hold (Nat.succ_le_of_lt hk)).2 (by simp)
  · rw [hlast]
    rfl

/-- Settles O29: a bulk payload of 62 readings or more is longer than the 125 bytes the buffer holds of one (R8, R79). -/
theorem unreceivableBulkFramesAreDroppedSilently : Obligations.UnreceivableBulkFramesAreDroppedSilently := by
  rintro s startIndex cnt values ckA ckB ⟨hw, hc⟩ hv hcnt
  refine ⟨⟨_, exec_bulkCapacitance startIndex cnt values ckA ckB s, receiveFrame_sameOutside _ s⟩, ?_⟩
  rintro bytes rfl
  have hf := probeFits_of_probe (sizeProbe_bulk_payload hc startIndex hv)
  have hlong : maxPayload < (startIndex :: cnt :: halvesBytes values).length := by
    simp [maxPayload_eq, hv]
    omega
  exact ⟨by simp [hv]; omega,
    storeAll_of_long (s := fullReset s) (q := [ckA, ckB]) rfl hw hf hlong (le_refl 2)⟩

end Sys2Proof.Machine
end

section
/-! PROOFS. The statements about the checksum accumulator. A run of `add_byte` is affine in the accumulator it starts from, so `cksum`
of a list is known from its head and tail, and of `l ++ l'` from the two parts; the closed form and what the checksum detects
follow from these equations. -/

namespace Sys2Proof.Machine

-- ==== What the three operations write (R90 to R92) ====

/-- Settles O4: the two additions on 8-bit words are the additions modulo 256. -/
theorem ckAddUsesTheNewAAndCkGetReturnsBoth : Obligations.CkAddUsesTheNewAAndCkGetReturnsBoth :=
  ⟨fun x s => ⟨s.ck.add x, exec_ckAdd x s, BitVec.toNat_add _ _, BitVec.toNat_add _ _⟩, fun s => exec_ckGet s⟩

theorem exec_frame_ck {i : Instr} {s t : State} {bytes : List Byte}
    (hf : encode s.config i = some (.frame, bytes)) (h : exec i s = .next t) : t.ck = s.ck := by
  cases (exec_of_encode_frame hf).symm.trans h
  obtain ⟨-, hck, -⟩ := receiveFrame_sameOutside bytes s
  exact hck

@[simp] theorem storeByte_ck (v : Byte) (s : State) : (storeByte v s).ck = s.ck := by
  obtain ⟨-, hck, -⟩ := storeByte_sameOutside v s
  exact hck

@[simp] theorem transmit_ck (r : Except EncodeRefusal (List Byte)) (s : State) : (transmit r s).ck = s.ck := by
  obtain ⟨-, hck⟩ := transmit_sameParser r s
  exact hck

/-- Parser, buffer, catalog and encoder do not write the accumulator of the component operations (R90, log 8). -/
theorem exec_ck {i : Instr} {s t : State} (h : exec i s = .next t) (hnew : i ≠ .ckNew) (hadd : ∀ x, i ≠ .ckAdd x) :
    t.ck = s.ck := by
  cases i with
  | ckNew => exact absurd rfl hnew
  | ckAdd x => exact absurd rfl (hadd x)
  | electrodeEnable | bulkCapacitance | activeCapacitance | ack | motionCmd | extra | unknown =>
    exact exec_frame_ck rfl h
  | unstuff d => cases h; exact storeByte_ck _ (clearEscaping s)
  | data d => cases h; exact storeByte_ck d s
  | feed b =>
    obtain ⟨-, hck, -⟩ := exec_feed_sameOutside h
    exact hck
  | encode | encodeMsg => cases h; exact transmit_ck _ s
  | rbPush v =>
    rcases exec_rbPush v s with ⟨u, hp, he⟩ | ⟨-, he⟩ <;> cases he.symm.trans h
    · obtain ⟨-, -, -, -, -, -, hck, -⟩ := rbPush_ok hp
      exact hck
    · rfl
  | rbTrailer =>
    rw [exec_rbTrailer] at h
    split at h <;> cases h
    rfl
  | rbCalcChecksum =>
    rw [exec_rbCalcChecksum] at h
    split at h <;> cases h
    rfl
  | decode => cases (exec_decode _ _ s).symm.trans h; rfl
  | catEncode => cases (exec_catEncode _ s).symm.trans h; rfl
  | esc | flag | reset | fullReset | stuff | ckGet | rbClear | rbId | rbPayload | rbIsComplete | sizeProbe =>
    cases h; rfl

/-- Settles O3, instruction by instruction. -/
theorem accumulatorIsResetOnlyByConstruction : Obligations.AccumulatorIsResetOnlyByConstruction :=
  ⟨exec_ckNew, fun _ _ _ => exec_ck⟩

-- ==== `cksum` as the return value of a run (R93) ====

theorem execAll_cons {i : Instr} {is : List Instr} {s t : State} (h : exec i s = .next t) :
    execAll (i :: is) s = execAll is t := by
  simp only [execAll, h]

/-- CK_ADD of each byte of `l` brings the accumulator to `addAll l`. -/
theorem execAll_map_ckAdd (l : List Byte) (is : List Instr) (s : State) :
    ∃ t, t.ck = s.ck.addAll l ∧ execAll (l.map Instr.ckAdd ++ is) s = execAll is t := by
  induction l generalizing s with
  | nil => exact ⟨s, rfl, rfl⟩
  | cons x l ih =>
    obtain ⟨t, hck, hrun⟩ := ih (answer .nothing { s with ck := s.ck.add x })
    exact ⟨t, hck, (execAll_cons (exec_ckAdd x s)).trans hrun⟩

theorem execAll_ckNew_ckAdd_ckGet (l : List Byte) (s : State) : ∃ t,
    execAll (.ckNew :: l.map Instr.ckAdd ++ [.ckGet]) s = .next t ∧ t.result = .pair (cksum l).1 (cksum l).2 := by
  obtain ⟨t, hck, hrun⟩ := execAll_map_ckAdd l [.ckGet] (answer .nothing { s with ck := Accumulator.new })
  refine ⟨answer (.pair t.ck.a t.ck.b) t, ?_, by rw [hck]; rfl⟩
  calc execAll (.ckNew :: l.map Instr.ckAdd ++ [.ckGet]) s
      = execAll (l.map Instr.ckAdd ++ [.ckGet]) _ := execAll_cons (exec_ckNew s)
    _ = execAll [.ckGet] t := hrun
    _ = .next _ := execAll_cons (exec_ckGet t)

-- ==== `cksum` of a list from its parts ====

@[simp] theorem cksum_nil : cksum [] = (0, 0) := rfl

theorem cksum_singleton (x : Byte) : cksum [x] = (x, x) := by
  simp [cksum, Accumulator.addAll, Accumulator.add, Accumulator.new, Accumulator.get]

/-- With `1` as the numeral `ring` reads, where `BitVec.ofNat_add` leaves `1#8`. -/
theorem byte_ofNat_succ (n : Nat) : BitVec.ofNat 8 (n + 1) = BitVec.ofNat 8 n + 1 := BitVec.ofNat_add n 1

/-- The bytes of `l` add their own checksum to any accumulator, and each of them adds the old `a` to `b` once more. -/
theorem Accumulator.get_addAll (k : Accumulator) (l : List Byte) :
    (k.addAll l).get = (k.a + (cksum l).1, k.b + BitVec.ofNat 8 l.length * k.a + (cksum l).2) := by
  induction l generalizing k with
  | nil => simp [addAll, get]
  | cons x l ih =>
    have hx : cksum (x :: l) = ((Accumulator.new.add x).addAll l).get := rfl
    rw [hx, ih (Accumulator.new.add x), addAll, ih (k.add x), List.length_cons, byte_ofNat_succ]
    simp only [add, new, Prod.mk.injEq]
    constructor <;> ring

theorem cksum_append (l l' : List Byte) :
    cksum (l ++ l') =
      ((cksum l).1 + (cksum l').1, (cksum l).2 + BitVec.ofNat 8 l'.length * (cksum l).1 + (cksum l').2) := by
  rw [cksum, Accumulator.addAll_append, Accumulator.get_addAll]
  rfl

/-- The first byte is counted once in `a`, and in `b` as often as the list is long (R93). -/
theorem cksum_cons (x : Byte) (l : List Byte) :
    cksum (x :: l) = (x + (cksum l).1, BitVec.ofNat 8 (l.length + 1) * x + (cksum l).2) := by
  rw [← List.singleton_append, cksum_append, cksum_singleton, byte_ofNat_succ, Prod.mk.injEq]
  exact ⟨rfl, by ring⟩

theorem cksum_replicate_zero (n : Nat) : cksum (List.replicate n 0) = (0, 0) := by
  induction n with
  | zero => rfl
  | succ n ih => rw [List.replicate_succ, cksum_cons, ih]; simp

-- ==== The closed form (R93) ====

theorem cksum_eq_ofNat (l : List Byte) :
    cksum l = (BitVec.ofNat 8 (l.map BitVec.toNat).sum, BitVec.ofNat 8 (weightedSum l)) := by
  induction l with
  | nil => rfl
  | cons x l ih => simp [cksum_cons, ih, weightedSum, BitVec.ofNat_add, BitVec.ofNat_mul]

/-- Settles O5, by the run and by the closed form. -/
theorem cksumHasTheClosedForm : Obligations.CksumHasTheClosedForm := by
  refine ⟨execAll_ckNew_ckAdd_ckGet, fun l => ?_, cksum_nil⟩
  rw [cksum_eq_ofNat]
  exact ⟨BitVec.toNat_ofNat _ _, BitVec.toNat_ofNat _ _⟩

-- ==== What the checksum detects and what it does not (R95) ====

/-- Exchanging two bytes leaves their sum; `y` gains the weight that `x` loses, their distance. -/
theorem cksum_swap (p q r : List Byte) (x y : Byte) :
    (cksum (p ++ y :: q ++ x :: r)).1 = (cksum (p ++ x :: q ++ y :: r)).1 ∧
    (cksum (p ++ y :: q ++ x :: r)).2 =
      (cksum (p ++ x :: q ++ y :: r)).2 + BitVec.ofNat 8 (q.length + 1) * (y - x) := by
  simp only [cksum_append, cksum_cons, List.length_cons, BitVec.ofNat_add]
  constructor <;> ring

theorem cksum_add_byte_fst (p r : List Byte) (x d : Byte) :
    (cksum (p ++ (x + d) :: r)).1 = (cksum (p ++ x :: r)).1 + d := by
  simp only [cksum_append, cksum_cons]
  ring

theorem cksum_add_byte_ne (p r : List Byte) (x : Byte) {d : Byte} (hd : d ≠ 0) :
    cksum (p ++ (x + d) :: r) ≠ cksum (p ++ x :: r) := by
  intro h
  have ha : (cksum (p ++ x :: r)).1 + d = (cksum (p ++ x :: r)).1 := by rw [← cksum_add_byte_fst, h]
  exact hd (add_eq_left.mp ha)

theorem cksum_replicate_zero_append (n : Nat) (l : List Byte) : cksum (List.replicate n 0 ++ l) = cksum l := by
  rw [cksum_append, cksum_replicate_zero]
  simp

theorem cksum_append_replicate_zero (n : Nat) (l : List Byte) :
    cksum (l ++ List.replicate n 0) = ((cksum l).1, (cksum l).2 + BitVec.ofNat 8 n * (cksum l).1) := by
  rw [cksum_append, cksum_replicate_zero]
  simp

/-- Settles O6. Two sequences not told apart: taking one from two neighbours of a byte and adding two to it changes neither sum. -/
theorem cksumDetectsEverySingleByteChange : Obligations.CksumDetectsEverySingleByteChange := by
  refine ⟨cksum_swap, fun p r x d => ⟨cksum_add_byte_fst p r x d, cksum_add_byte_ne p r x⟩,
    cksum_replicate_zero_append, fun n l => ?_, [1, 0, 1], [0, 2, 0], rfl, by decide, by decide⟩
  rw [cksum_append_replicate_zero]
  exact ⟨rfl, fun ha => by simp [ha]⟩

end Sys2Proof.Machine
end

section
/-! PROOFS. The statements about the receive buffer: its operations one by one, the completeness test under both readings of
`payload_so_far`, and the parser at rest. The last two turn on one fact: whether a payload is as long as its probe says does not
depend on the bytes behind it. -/

namespace Sys2Proof.Machine

-- ==== RB_PUSH, RB_CLEAR and RB_ID (R100 to R102) ====

/-- Settles O7, by the push's two cases. -/
theorem rbPushStoresAtCountOrFails : Obligations.RbPushStoresAtCountOrFails := by
  refine fun v s => ⟨fun hw hlt => ?_, fun hfull => exec_rbPush_of_full v hfull⟩
  obtain ⟨t, ht⟩ := rbPush_of_lt v hlt
  obtain ⟨-, hcnt, -, hesc, -, hout⟩ := rbPush_ok ht
  have hread := rbPush_read hw ht
  refine ⟨answer .pushOk t, exec_rbPush_of_ok ht, hcnt, ?_, fun k hk => ?_, hesc, rfl, hout⟩
  · rw [answer_buf, hread, if_pos rfl]
  · rw [answer_buf, hread, if_neg (Ne.symm hk)]

/-- Settles O8: the clear writes `count` alone. -/
theorem rbClearEmptiesTheBuffer : Obligations.RbClearEmptiesTheBuffer :=
  fun s => ⟨_, exec_rbClear s, rfl, rfl, rfl, rfl, rfl, rfl, rfl⟩

theorem rbId_of_pos {s : State} (h : 1 ≤ s.count.val) : rbId s = some (s.buf.read 0) := if_pos h

theorem rbId_of_empty {s : State} (h : s.count.val = 0) : rbId s = none := if_neg (by omega)

/-- Settles O9, by whether a byte is held. -/
theorem rbIdIsByteZero : Obligations.RbIdIsByteZero := by
  refine fun s => ⟨fun h => ?_, fun h => ?_⟩
  · rw [exec_rbId, rbId_of_pos h]; rfl
  · rw [exec_rbId, rbId_of_empty h]; rfl

-- ==== The payload view, the trailer and the checksum (R103 to R105) ====

/-- Below three bytes the subtraction is 0 and the run empty, so the view is one run for every `count`. -/
theorem rbPayload_eq_readRun (s : State) : rbPayload s = s.buf.readRun 1 (s.count.val - 3) := by
  unfold rbPayload
  split_ifs with h
  · rfl
  · rw [Nat.sub_eq_zero_of_le (by omega)]; rfl

theorem Memory.getElem?_readRun (m : Memory) (i : Nat) {n k : Nat} (h : k < n) :
    (readRun m i n)[k]? = some (read m (i + k)) := by
  simp [readRun_eq_map, h]

/-- Settles O10: the view is the run of bytes from index 1. -/
theorem rbPayloadLeavesOutIdAndTrailer : Obligations.RbPayloadLeavesOutIdAndTrailer := by
  refine fun s => ⟨rbPayload s, exec_rbPayload s, rbPayload_length s, fun k hk => ?_⟩
  rw [rbPayload_eq_readRun, Memory.getElem?_readRun _ _ hk]

theorem rbCalcChecksum_eq_map (s : State) :
    rbCalcChecksum s = cksum ((List.range (s.count.val - 2)).map s.buf.read) := by
  simp only [rbCalcChecksum, Memory.readRun_eq_map, Nat.zero_add]

/-- Settles O11, by the precondition `count >= 3`. -/
theorem trailerAndChecksumNeedThreeBytes : Obligations.TrailerAndChecksumNeedThreeBytes := by
  refine fun s => ⟨fun h => ⟨?_, _, _, rbCalcChecksum_eq_map s, ?_⟩, fun h => ⟨?_, ?_⟩⟩
  · rw [exec_rbTrailer, if_pos h]; rfl
  · rw [exec_rbCalcChecksum, if_pos h]; rfl
  · rw [exec_rbTrailer, if_neg (by omega)]
  · rw [exec_rbCalcChecksum, if_neg (by omega)]

-- ==== The completeness test (R106, R107) ====

/-- Settles O12. -/
theorem rbIsCompleteTestsEquality : Obligations.RbIsCompleteTestsEquality :=
  fun s => ⟨rbIsComplete s, exec_rbIsComplete s, rbIsComplete_iff s⟩

theorem Memory.readRun_add (m : Memory) (i n k : Nat) :
    readRun m i (n + k) = readRun m i n ++ readRun m (i + n) k := by
  induction k with
  | zero => exact (List.append_nil _).symm
  | succ k ih => rw [← Nat.add_assoc, readRun_succ, ih, readRun_succ, List.append_assoc, Nat.add_assoc]

theorem Memory.readRun_prefix (m : Memory) (i : Nat) {n n' : Nat} (h : n ≤ n') : readRun m i n <+: readRun m i n' := by
  obtain ⟨k, rfl⟩ := Nat.exists_eq_add_of_le h
  exact ⟨_, (readRun_add m i n k).symm⟩

/-- The payload view is the front of all bytes after the id. -/
theorem rbPayload_prefix (s : State) : rbPayload s <+: s.buf.readRun 1 (s.count.val - 1) := by
  rw [rbPayload_eq_readRun]
  exact Memory.readRun_prefix _ _ (by omega)

/-- Whether a payload is as long as its probe says does not depend on the bytes behind it. -/
theorem sizeProbe_prefix_iff {c : Config} {id : Byte} {p q : List Byte} (h : p <+: q) :
    sizeProbe c id q = .known p.length ↔ sizeProbe c id p = .known p.length := by
  obtain ⟨r, rfl⟩ := h
  exact ⟨sizeProbe_of_append, fun hp => sizeProbe_append hp r⟩

/-- Settles O13: `count = n + 3` says that the payload view has the length `n`. -/
theorem bothReadingsOfPayloadSoFarAgree : Obligations.BothReadingsOfPayloadSoFarAgree := by
  intro s
  rw [rbIsComplete_iff]
  refine and_congr_right fun _ => exists_congr fun n => and_congr_left fun hn => ?_
  have hlen : n = (rbPayload s).length := by rw [rbPayload_length]; omega
  rw [hlen]
  exact (sizeProbe_prefix_iff (rbPayload_prefix s)).symm

-- ==== Lengths no buffer can hold (R108 (a)) ====

/-- An id read as an extra kind is one of the configured ones, with the length it declares (R163). -/
theorem mem_extraKinds_of_kindOf {c : Config} {id : Byte} {n : Nat} (h : kindOf c id = .extra n) :
    (⟨id, n⟩ : ExtraKind) ∈ c.extraKinds := by
  unfold kindOf at h
  split_ifs at h
  split at h
  next hx => cases h; exact extraLen_some hx
  · cases h

/-- Every length but a bulk frame's fits the buffer (R8, table R9). -/
theorem sizeProbe_le_of_not_bulk {c : Config} {id : Byte} {p : List Byte} {n : Nat} (hc : c.Valid)
    (hk : kindOf c id ≠ .bulkCapacitance) (h : sizeProbe c id p = .known n) : n ≤ maxPayload := by
  obtain ⟨-, hextra⟩ := hc
  rw [maxPayload_eq] at hextra ⊢
  unfold sizeProbe at h
  cases hkind : kindOf c id <;> rw [hkind] at h
  case bulkCapacitance => exact absurd hkind hk
  case extra m =>
    cases h
    exact hextra _ (mem_extraKinds_of_kindOf hkind)
  all_goals -- a constant of table R69
    cases h
    omega

/-- A length the probe knows of a bulk frame is that of its count byte (R157). -/
theorem sizeProbe_bulk_known {c : Config} {id : Byte} {p : List Byte} {n : Nat} (hk : kindOf c id = .bulkCapacitance)
    (h : sizeProbe c id p = .known n) : 2 ≤ p.length ∧ n = 2 + 2 * (byteAt p 1).toNat := by
  rw [sizeProbe_of_bulk hk] at h
  split_ifs at h with h2
  cases h
  exact ⟨by omega, rfl⟩

/-- Settles O14: a complete buffer would hold more than 128 bytes. -/
theorem onlyBulkIsEverTooLong : Obligations.OnlyBulkIsEverTooLong := by
  refine fun s hc => ⟨fun id p n hn hlong => ?_, fun hid hcnt => ?_⟩
  · have hk : kindOf s.config id = .bulkCapacitance := by
      by_contra hk
      have := sizeProbe_le_of_not_bulk hc hk hn
      omega
    obtain ⟨-, rfl⟩ := sizeProbe_bulk_known hk hn
    rw [maxPayload_eq] at hlong
    exact ⟨(kindId_of_kindOf hk).symm, by omega⟩
  · obtain ⟨hk, -⟩ := kindOf_valid hc
    by_contra hcomplete
    obtain ⟨-, n, hn, hcount⟩ := (rbIsComplete_iff s).mp (by simpa using hcomplete)
    rw [idByte, hid] at hn
    obtain ⟨hlen, rfl⟩ := sizeProbe_bulk_known hk hn
    rw [rbPayload_length] at hlen
    have hbyte : byteAt (rbPayload s) 1 = s.buf.read 2 := by
      rw [rbPayload_eq_readRun, Memory.byteAt_readRun _ (by omega)]
    have hcap : s.count.val < 129 := s.count.isLt
    rw [hbyte] at hcount
    omega

-- ==== The parser at rest (R108 (c)) ====

/-- At rest: a buffer that holds an id and knows its length holds less than the whole frame. -/
theorem State.atRest_iff (s : State) :
    s.atRest = true ↔
      (1 ≤ s.count.val → ∀ n, sizeProbe s.config (idByte s) (rbPayload s) = .known n → s.count.val < n + 3) := by
  unfold State.atRest rbId
  by_cases h : 1 ≤ s.count.val
  · cases hp : sizeProbe s.config (idByte s) (rbPayload s) <;> simp [h, hp, overhead, idLen, trailerLen]
  · simp [h]

theorem State.atRest_of_empty {s : State} (h : s.count.val = 0) : s.atRest = true :=
  s.atRest_iff.mpr fun h1 => by omega

/-- A length known from more bytes is known from any front of them that is at least that long. -/
theorem sizeProbe_of_prefix {c : Config} {id : Byte} {p q : List Byte} {n : Nat} (hpq : p <+: q)
    (hq : sizeProbe c id q = .known n) (hn : n ≤ p.length) : sizeProbe c id p = .known n := by
  have hp : p.take n <+: p := List.take_prefix n p
  have hlen : n = (p.take n).length := (List.length_take_of_le hn).symm
  rw [hlen] at hq ⊢
  rw [sizeProbe_prefix_iff (hp.trans hpq)] at hq
  exact (sizeProbe_prefix_iff hp).mpr hq

section
variable {v : Byte} {s t : State}

theorem rbPush_idByte (hw : s.buf.wf = true) (h : rbPush v s = .ok t) (h1 : 1 ≤ s.count.val) : idByte t = idByte s := by
  rw [idByte, rbPush_read hw h, if_neg (by omega), idByte]

/-- A push adds at most one byte to the payload view, at its end. -/
theorem rbPush_rbPayload_prefix (hw : s.buf.wf = true) (h : rbPush v s = .ok t) : rbPayload s <+: rbPayload t := by
  obtain ⟨-, hcnt, -⟩ := rbPush_ok h
  have hrun : s.buf.readRun 1 (s.count.val - 3) = t.buf.readRun 1 (s.count.val - 3) :=
    Memory.readRun_congr fun k h1 h2 => by rw [rbPush_read hw h, if_neg (by omega)]
  rw [rbPayload_eq_readRun, rbPayload_eq_readRun, hrun]
  exact Memory.readRun_prefix _ _ (by omega)

/-- A push from rest cannot pass the completion: where the buffer is overrun, it was complete or overrun one byte before. -/
theorem rbPush_atRest (hw : s.buf.wf = true) (hr : s.atRest = true) (h : rbPush v s = .ok t)
    (hc : rbIsComplete t = false) : t.atRest = true := by
  obtain ⟨-, hcnt, -, -, -, hcfg, -⟩ := rbPush_ok h
  refine t.atRest_iff.mpr fun h1 n hn => ?_
  have hne : t.count.val ≠ n + 3 := fun heq => by
    simp [(rbIsComplete_iff t).mpr ⟨h1, n, hn, heq⟩] at hc
  by_contra hover
  have hlen : n ≤ (rbPayload s).length := by rw [rbPayload_length]; omega
  rw [hcfg, rbPush_idByte hw h (by omega)] at hn
  have hbefore := s.atRest_iff.mp hr (by omega) n (sizeProbe_of_prefix (rbPush_rbPayload_prefix hw h) hn hlen)
  omega

theorem storeByte_atRest (v : Byte) (hw : s.buf.wf = true) (hr : s.atRest = true) : (storeByte v s).atRest = true := by
  rcases storeByte_cases v s with ⟨-, he⟩ | ⟨t, hp, hc, he⟩ | ⟨t, -, -, he⟩ <;> rw [he]
  · exact State.atRest_of_empty rfl
  · exact rbPush_atRest (t := t) hw hr hp hc
  · obtain ⟨hcnt, -⟩ := completeFrame_clean t
    exact State.atRest_of_empty hcnt

theorem exec_feed_atRest {b : Byte} (hw : s.buf.wf = true) (hr : s.atRest = true) (h : exec (.feed b) s = .next t) :
    t.atRest = true := by
  rcases feed_cases b s with ⟨-, -, he⟩ | ⟨-, -, he⟩ | ⟨v, -, he⟩ <;> cases he.symm.trans h
  · exact hr
  · exact State.atRest_of_empty rfl
  · exact storeByte_atRest (s := clearEscaping s) v hw hr

@[simp] theorem transmit_input (r : Except EncodeRefusal (List Byte)) (s : State) : (transmit r s).input = s.input := by
  obtain ⟨⟨-, -, -, -, hin⟩, -⟩ := transmit_sameParser r s
  exact hin

@[simp] theorem transmit_atRest (r : Except EncodeRefusal (List Byte)) (s : State) :
    (transmit r s).atRest = s.atRest := by
  cases r <;> rfl

/-- A host operation takes nothing from the input and leaves the parser at rest. -/
theorem exec_hostOp {i : Instr} (hi : isHostOp i = true) (hw : s.buf.wf = true) (hr : s.atRest = true)
    (h : exec i s = .next t) : t.input = s.input ∧ t.atRest = true := by
  cases i with
  | feed b =>
    obtain ⟨-, -, hin, -⟩ := exec_feed_sameOutside h
    exact ⟨hin, exec_feed_atRest hw hr h⟩
  | reset => cases h; exact ⟨rfl, State.atRest_of_empty rfl⟩
  | encode | encodeMsg =>
    cases h
    exact ⟨transmit_input _ s, (transmit_atRest _ s).trans hr⟩
  | _ => cases hi

theorem format_of_isHostOp {i : Instr} (h : isHostOp i = true) : i.format = .op := by
  cases i with
  | feed | reset | encode | encodeMsg => rfl
  | _ => cases h

/-- All a step under host-driven input can do: it is idle, or it runs one host operation (a wire byte is a FEED, R81) off the front of
the input. -/
theorem step_hostDriven_cases (h : s.HostDriven) :
    step s = .next (answer .nothing s) ∨
      ∃ i rest, isHostOp i = true ∧ (∀ r ∈ rest, Request.host r = true) ∧ step s = exec i { s with input := rest } := by
  cases hin : s.input with
  | nil => exact .inl (step_idle hin)
  | cons r rest =>
    rw [State.HostDriven, hin, List.forall_mem_cons] at h
    obtain ⟨hr, hrest⟩ := h
    right
    cases r with
    | wireByte b => exact ⟨.feed b, rest, rfl, hrest, step_wireByte hin⟩
    | frameBytes bytes => cases hr
    | call i => exact ⟨i, rest, hr, hrest, step_call hin (format_of_isHostOp hr)⟩

end

/-- Settles O58: the canonical form is kept by every step, rest and the remaining input by every host operation. -/
theorem hostDrivenStepKeepsTheParserAtRest : Obligations.HostDrivenStepKeepsTheParserAtRest := by
  intro s t hh hw hr h
  have hw' : t.buf.wf = true := step_wf hw h
  rcases step_hostDriven_cases hh with he | ⟨i, rest, hi, hrest, he⟩
  · cases he.symm.trans h
    exact ⟨hh, hw', hr⟩
  · obtain ⟨hin, hr'⟩ := exec_hostOp (s := { s with input := rest }) hi hw hr (he.symm.trans h)
    exact ⟨by rwa [State.HostDriven, hin], hw', hr'⟩

end Sys2Proof.Machine
end

section
/-! PROOFS. The statements about the frame parser. A symbol that stores a byte ends in one of three ways, the silent overflow, the byte
kept, or the completed frame, and each is one equation; FEED is then read through the symbol its byte is. -/

namespace Sys2Proof.Machine

-- ==== The resets, ESC and FLAG (R122, R123, R134, R135) ====

theorem sameOutside_refl (s : State) : sameOutside s s := ⟨rfl, rfl, rfl, rfl⟩

/-- The full reset leaves the clean state and touches the parser alone (R134). -/
theorem answer_fullReset_clean (r : Result) {s t : State} (h : sameOutside s t) :
    (answer r (fullReset t)).Clean ∧ (answer r (fullReset t)).result = r ∧
      sameOutside s (answer r (fullReset t)) :=
  ⟨⟨rfl, rfl⟩, rfl, h⟩

/-- An instruction that ends in the full reset, in the words of the statements. -/
theorem exec_clean_of_fullReset {i : Instr} {s t : State} {o : ParseOutcome} (hx : exec i s = .next (emit o (fullReset t)))
    (h : sameOutside s t) : ∃ u, exec i s = .next u ∧ u.Clean ∧ u.result = .outcome o ∧ sameOutside s u :=
  ⟨_, hx, answer_fullReset_clean (.outcome o) h⟩

/-- Settles O1: both resets end in the full reset, and return nothing. -/
theorem everyResetLeavesTheCleanState : Obligations.EveryResetLeavesTheCleanState := by
  intro s
  obtain ⟨hclean, hres, hout⟩ := answer_fullReset_clean .nothing (sameOutside_refl s)
  exact ⟨_, _, exec_reset s, hclean, hres, hout, exec_fullReset s, hclean, hres, hout⟩

/-- Settles O16: this is the equation of ESC, both fields written out. -/
theorem escSetsEscapingOnly : Obligations.EscSetsEscapingOnly := exec_esc

/-- Settles O17: FLAG ends in the full reset. -/
theorem flagDiscardsTheFrameSilently : Obligations.FlagDiscardsTheFrameSilently :=
  fun s => exec_clean_of_fullReset (exec_flag s) (sameOutside_refl s)

-- ==== The three ends of a store, as DATA and as UNSTUFF (R121, R124 to R128) ====

/-- Settles O18: either symbol's store at a full buffer ends in the full reset. -/
theorem overflowIsSilent : Obligations.OverflowIsSilent := by
  intro d s hfull
  have hdata : exec (.data d) s = .next (emit .none (fullReset s)) := by
    rw [exec_data, storeByte_of_full d hfull]
  have hunstuff : exec (.unstuff d) s = .next (emit .none (fullReset (clearEscaping s))) := by
    rw [exec_unstuff, storeByte_of_full (s := clearEscaping s) _ hfull]
  obtain ⟨t, ht, htclean, htres, htout⟩ := exec_clean_of_fullReset hdata (sameOutside_refl s)
  obtain ⟨u, hu, huclean, hures, huout⟩ := exec_clean_of_fullReset hunstuff (sameOutside_refl s)
  exact ⟨t, u, ht, htclean, htres, htout, hu, huclean, hures, huout⟩

section
variable {d v : Byte} {s t : State}

theorem rbPush_sameOutside (h : rbPush v s = .ok t) : sameOutside s t := by
  obtain ⟨-, -, -, -, -, hout⟩ := rbPush_ok h
  exact hout

theorem rbPush_count (h : rbPush v s = .ok t) : t.count.val = s.count.val + 1 := by
  obtain ⟨-, hcnt, -⟩ := rbPush_ok h
  exact hcnt

/-- UNSTUFF's store that leaves the buffer incomplete: the byte stays, with `escaping` clear (R121, R125). -/
theorem storeByte_clearEscaping_of_incomplete (h : rbPush v s = .ok t) (hc : rbIsComplete t = false) :
    storeByte v (clearEscaping s) = emit .none (clearEscaping t) :=
  storeByte_of_incomplete (t := clearEscaping t) (rbPush_clearEscaping h) hc

/-- A store that completes the buffer emits the frame's outcome after the full reset (R126 to R128). -/
theorem storeByte_eq_of_complete (h : rbPush v s = .ok t) (hc : rbIsComplete t = true) :
    storeByte v s = emit (frameOutcome t) (fullReset t) := by
  rw [storeByte_of_complete h hc, completeFrame_eq]

/-- That the completing store clears `escaping` first shows nowhere: the outcome does not read it, and the reset clears it. -/
theorem storeByte_clearEscaping_of_complete (h : rbPush v s = .ok t) (hc : rbIsComplete t = true) :
    storeByte v (clearEscaping s) = emit (frameOutcome t) (fullReset t) :=
  storeByte_eq_of_complete (t := clearEscaping t) (rbPush_clearEscaping h) hc

theorem exec_data_of_complete (h : rbPush d s = .ok t) (hc : rbIsComplete t = true) :
    ∃ u, exec (.data d) s = .next u ∧ u.Clean ∧ u.result = .outcome (frameOutcome t) ∧ sameOutside s u :=
  exec_clean_of_fullReset (by rw [exec_data, storeByte_eq_of_complete h hc]) (rbPush_sameOutside h)

theorem exec_unstuff_of_complete (h : rbPush (d ^^^ 0x20) s = .ok t) (hc : rbIsComplete t = true) :
    ∃ u, exec (.unstuff d) s = .next u ∧ u.Clean ∧ u.result = .outcome (frameOutcome t) ∧ sameOutside s u :=
  exec_clean_of_fullReset (t := t) (by rw [exec_unstuff, unstuffed, storeByte_clearEscaping_of_complete h hc])
    (rbPush_sameOutside h)

theorem rbPush_read_count (hw : s.buf.wf = true) (h : rbPush v s = .ok t) : t.buf.read s.count.val = v := by
  rw [rbPush_read hw h, if_pos rfl]

theorem rbPush_read_of_ne (hw : s.buf.wf = true) (h : rbPush v s = .ok t) {k : Nat} (hk : k ≠ s.count.val) :
    t.buf.read k = s.buf.read k := by
  rw [rbPush_read hw h, if_neg hk.symm]

/-- A frame has at least three bytes, so the id alone never completes one (R125). -/
theorem rbIsComplete_of_count_le (h : s.count.val < 3) : rbIsComplete s = false := by
  by_contra hc
  obtain ⟨-, n, -, hn⟩ := (rbIsComplete_iff s).mp (by simpa using hc)
  omega

end

/-- Settles O20: both stores keep what the push leaves, and one byte is fewer than the three of the shortest frame. -/
theorem incompleteStoreKeepsTheByte : Obligations.IncompleteStoreKeepsTheByte := by
  refine ⟨fun d s t hw hp hc => ?_, fun d s t hw hp hc => ?_, fun v s hempty => ?_⟩
  · obtain ⟨-, hcnt, -, hesc, -, hout⟩ := rbPush_ok hp
    exact ⟨emit .none t, by rw [exec_data, storeByte_of_incomplete hp hc], hcnt, hesc, rbPush_read_count (t := t) hw hp,
      fun _ => rbPush_read_of_ne (t := t) hw hp, rfl, hout⟩
  · obtain ⟨-, hcnt, -, -, -, hout⟩ := rbPush_ok hp
    exact ⟨emit .none (clearEscaping t), by rw [exec_unstuff, unstuffed, storeByte_clearEscaping_of_incomplete hp hc], hcnt,
      rfl, rbPush_read_count (t := t) hw hp, fun _ => rbPush_read_of_ne (t := t) hw hp, rfl, hout⟩
  · obtain ⟨t, ht⟩ := rbPush_of_lt v (s := s) (by rw [hempty]; decide)
    exact ⟨t, ht, rbIsComplete_of_count_le (by rw [rbPush_count ht]; omega)⟩

-- ==== The outcome of a completed frame (R126 to R128) ====

section
variable {t : State}

/-- The payload of a complete buffer has exactly the probed length (R126). -/
theorem sizeProbe_of_complete (hc : rbIsComplete t = true) :
    sizeProbe t.config (idByte t) (rbPayload t) = .known (rbPayload t).length := by
  obtain ⟨-, n, hn, hcount⟩ := (rbIsComplete_iff t).mp hc
  rw [hn, rbPayload_length, hcount, Nat.add_sub_cancel]

/-- So the one decode error of a complete buffer is the unknown id (R127, R214). -/
theorem decodeMessage_of_complete (hc : rbIsComplete t = true) :
    (∃ m, decodeMessage t.config (idByte t) (rbPayload t) = .ok m) ∨
      decodeMessage t.config (idByte t) (rbPayload t) = .error (.unknownPacketId (idByte t)) :=
  (decodeMessage_of_fits (sizeProbe_of_complete hc) le_rfl).symm.imp_right And.right

theorem frameOutcome_of_good (h : rbTrailer t = rbCalcChecksum t) :
    frameOutcome t = outcomeOfDecode (decodeMessage t.config (idByte t) (rbPayload t)) := if_pos h

theorem frameOutcome_of_bad (h : rbTrailer t ≠ rbCalcChecksum t) :
    frameOutcome t = .err (.checksumError (u16le (rbTrailer t).1 (rbTrailer t).2)
      (u16le (rbCalcChecksum t).1 (rbCalcChecksum t).2)) := if_neg h

/-- A completed frame answers a message, an unknown id or a checksum error (table R210). -/
theorem outcomeCode_frameOutcome_le (hc : rbIsComplete t = true) : outcomeCode (frameOutcome t) ≤ 3 := by
  by_cases h : rbTrailer t = rbCalcChecksum t
  · rw [frameOutcome_of_good h]
    rcases decodeMessage_of_complete hc with ⟨m, hm⟩ | he
    · simp [hm, outcomeOfDecode, outcomeCode]
    · simp [he, outcomeOfDecode, outcomeCode]
  · simp [frameOutcome_of_bad h, outcomeCode]

end

/-- Settles O21, with the outcome `outcomeOfDecode` makes of the catalog's answer. -/
theorem goodFrameIsDecodedThenReset : Obligations.GoodFrameIsDecodedThenReset := by
  intro d s t hc hgood _
  refine ⟨frameOutcome t, sizeProbe_of_complete hc, fun m hm => ?_, fun e he => ⟨?_, ?_⟩,
    fun hp => exec_data_of_complete hp hc, fun hp => exec_unstuff_of_complete hp hc⟩
  · rw [frameOutcome_of_good hgood, idByte, hm, outcomeOfDecode]
  · rw [frameOutcome_of_good hgood, idByte, he, outcomeOfDecode]
  · rcases decodeMessage_of_complete hc with ⟨m, hm⟩ | hunknown
    · cases hm.symm.trans he
    · cases hunknown.symm.trans he
      rfl

/-- Settles O22: the two packed values differ because packing is injective. -/
theorem badChecksumIsReportedThenReset : Obligations.BadChecksumIsReportedThenReset := by
  intro d s t hc hbad
  refine ⟨_, _, u16le_toNat _ _, u16le_toNat _ _, fun heq => hbad ?_, ?_⟩
  · obtain ⟨ha, hb⟩ := u16le_injective heq
    exact Prod.ext ha hb
  · rw [← frameOutcome_of_bad hbad]
    exact ⟨fun hp => exec_data_of_complete hp hc, fun hp => exec_unstuff_of_complete hp hc⟩

-- ==== FEED (R120, R132, R133) ====

/-- FEED of a byte that reads as UNSTUFF or DATA is the store of the byte it stands for, with `escaping` clear (R121, R124). -/
theorem exec_feed_of_stored {b v : Byte} {s : State}
    (h : (s.escaping = true ∧ v = b ^^^ 0x20) ∨ (s.escaping = false ∧ b ≠ 0x7D ∧ b ≠ 0x7E ∧ v = b)) :
    exec (.feed b) s = .next (storeByte v (clearEscaping s)) := by
  obtain ⟨hunstuff, -, -, hdata⟩ := feedRunsTheSymbolTheByteIs b s
  rcases h with ⟨hesc, rfl⟩ | ⟨hesc, h1, h2, rfl⟩
  · exact (hunstuff hesc).2.trans (exec_unstuff b s)
  · rw [clearEscaping_of hesc]
    exact (hdata hesc h1 h2).2.trans (exec_data v s)

/-- Settles O23, row by row: ESC, FLAG, and the three ends of a store. -/
theorem feedFollowsTheTransitionTable : Obligations.FeedFollowsTheTransitionTable := by
  intro b s
  obtain ⟨u, hu⟩ : ∃ u, exec (.feed b) s = .next u := ⟨_, exec_feed b s⟩
  obtain ⟨-, hrunEsc, hrunFlag, -⟩ := feedRunsTheSymbolTheByteIs b s
  refine ⟨u, hu, fun hesc hb => ?_, fun hesc hb => ?_, fun v hv => ?_⟩
  · cases hu.symm.trans ((hrunEsc hesc hb).2.trans (exec_esc s))
    exact ⟨rfl, rfl, rfl⟩
  · cases hu.symm.trans ((hrunFlag hesc hb).2.trans (exec_flag s))
    exact ⟨rfl, rfl, rfl⟩
  · cases hu.symm.trans (exec_feed_of_stored hv)
    refine ⟨storeByte_escaping rfl, fun hfull => ?_, fun t hp => ⟨fun hc => ?_, fun hc hgood => ?_, fun hc hbad => ?_⟩⟩
    · rw [storeByte_of_full (s := clearEscaping s) v hfull]
      exact ⟨rfl, rfl⟩
    · rw [storeByte_clearEscaping_of_incomplete hp hc]
      exact ⟨rbPush_count (t := t) hp, rfl⟩
    · rw [storeByte_clearEscaping_of_complete hp hc, emit_result, frameOutcome_of_good hgood]
      refine ⟨rfl, ?_⟩
      rcases decodeMessage_of_complete hc with ⟨m, hm⟩ | he
      · exact .inl ⟨m, hm, by rw [hm, outcomeOfDecode]⟩
      · exact .inr (.inl ⟨_, he, by rw [he, outcomeOfDecode]⟩)
    · rw [storeByte_clearEscaping_of_complete hp hc, emit_result, frameOutcome_of_bad hbad]
      exact ⟨rfl, _, _, rfl⟩

/-- A store answers one outcome of table R210, of code 0 to 3. -/
theorem storeByte_outcome (v : Byte) (s : State) :
    ∃ o, (storeByte v s).result = .outcome o ∧ outcomeCode o ≤ 3 := by
  rcases storeByte_cases v s with ⟨-, he⟩ | ⟨t, -, -, he⟩ | ⟨t, -, hc, he⟩ <;> rw [he]
  · exact ⟨.none, rfl, by decide⟩
  · exact ⟨.none, rfl, by decide⟩
  · exact ⟨frameOutcome t, by rw [completeFrame_eq, emit_result], outcomeCode_frameOutcome_le hc⟩

theorem feed_outcome (b : Byte) (s : State) :
    ∃ u o, exec (.feed b) s = .next u ∧ u.result = .outcome o ∧ outcomeCode o ≤ 3 := by
  rcases feed_cases b s with ⟨-, -, he⟩ | ⟨-, -, he⟩ | ⟨v, -, he⟩
  · exact ⟨_, .none, he, rfl, by decide⟩
  · exact ⟨_, .none, he, rfl, by decide⟩
  · obtain ⟨o, ho, hcode⟩ := storeByte_outcome v (clearEscaping s)
    exact ⟨_, o, he, ho, hcode⟩

/-- Settles O25: the two outcomes FEED never answers have the codes 4 and 5. -/
theorem feedAlwaysAnswersOneOutcome : Obligations.FeedAlwaysAnswersOneOutcome := by
  intro b s
  obtain ⟨u, o, hu, ho, hcode⟩ := feed_outcome b s
  refine ⟨u, o, hu, ho, hcode, ?_, ?_, exec_feed_sameOutside hu⟩
  · rintro rfl
    exact absurd hcode (by decide)
  · rintro rfl
    exact absurd hcode (by decide)

/-- A flag clears `escaping`, as FLAG or as the UNSTUFF it is swallowed by (R132). -/
theorem feed_flag_escaping {s t : State} (h : exec (.feed flagByte) s = .next t) : t.escaping = false := by
  cases hesc : s.escaping
  · cases (feed_flag hesc).symm.trans h
    rfl
  · cases (exec_feed_of_stored (.inl ⟨hesc, rfl⟩)).symm.trans h
    exact storeByte_escaping rfl

/-- Settles O26: the first flag clears `escaping`, so the second is read as FLAG. -/
theorem twoFlagsAlwaysResynchronise : Obligations.TwoFlagsAlwaysResynchronise := by
  intro s t h
  have ht : t.escaping = false := feed_flag_escaping h
  refine ⟨fun hs => ?_, ht, _, feed_flag ht, ⟨rfl, rfl⟩, rfl⟩
  cases (feed_flag hs).symm.trans h
  exact ⟨rfl, rfl⟩

end Sys2Proof.Machine
end

section
/-! PROOFS. The statements about the message catalog. SIZE_PROBE, DECODE and CAT_ENCODE write their answer alone, so each is one
equation about a catalog function; for a kind it needs the row the id selects, the row's length, and the two bytes of a field. -/

namespace Sys2Proof.Machine

-- ==== The three operations by what the catalog answers (R151, R152, R155) ====

section
variable {s : State} {id : Byte} {p : List Byte} {m : Message}

theorem exec_sizeProbe_of {a : Probe} (h : sizeProbe s.config id p = a) :
    exec (.sizeProbe id p) s = .next { s with result := .probe a } := by
  rw [exec_sizeProbe, h]
  rfl

theorem exec_decode_of_ok (h : decodeMessage s.config id p = .ok m) :
    exec (.decode id p) s = .next { s with result := .decodeOk m } := by
  rw [exec_decode, h]
  rfl

theorem exec_decode_of_error {e : ParseError} (h : decodeMessage s.config id p = .error e) :
    exec (.decode id p) s = .next { s with result := .decodeErr e } := by
  rw [exec_decode, h]
  rfl

theorem exec_catEncode_of_ok (h : encodeMessage s.config m = .ok (id, p)) :
    exec (.catEncode m) s = .next { s with result := .encoded id p } := by
  rw [exec_catEncode, h]
  rfl

theorem exec_catEncode_of_error {r : EncodeRefusal} (h : encodeMessage s.config m = .error r) :
    exec (.catEncode m) s = .next { s with result := .refused r } := by
  rw [exec_catEncode, h]
  rfl

/-- An id and payload that CAT_ENCODE returns are the catalog's (R155). -/
theorem encodeMessage_of_exec {t : State} (h : exec (.catEncode m) s = .next t) (hr : t.result = .encoded id p) :
    encodeMessage s.config m = .ok (id, p) := by
  cases hm : encodeMessage s.config m with
  | ok e =>
    obtain ⟨id', p'⟩ := e
    cases (exec_catEncode_of_ok hm).symm.trans h
    cases hr
    rfl
  | error r =>
    cases (exec_catEncode_of_error hm).symm.trans h
    cases hr

end

-- ==== CAT_ENCODE of a bulk list, by what the count byte holds (R159) ====

section
variable {c : Config} {startIndex : Byte} {values : List Half}

theorem encodeMessage_bulk_of_le (h : values.length ≤ 255) :
    encodeMessage c (.bulkCapacitance startIndex values) =
      .ok (c.idBulkCapacitance, startIndex :: BitVec.ofNat 8 values.length :: halvesBytes values) :=
  if_neg h.not_gt

theorem encodeMessage_bulk_of_gt (h : 255 < values.length) :
    encodeMessage c (.bulkCapacitance startIndex values) = .error .tooManyValues :=
  if_pos h

theorem encodeMessage_bulk_ok {id : Byte} {p : List Byte}
    (h : encodeMessage c (.bulkCapacitance startIndex values) = .ok (id, p)) :
    values.length ≤ 255 ∧ id = c.idBulkCapacitance ∧
      p = startIndex :: BitVec.ofNat 8 values.length :: halvesBytes values := by
  rcases Nat.lt_or_ge 255 values.length with hlt | hle
  · cases (encodeMessage_bulk_of_gt hlt).symm.trans h
  · cases (encodeMessage_bulk_of_le hle).symm.trans h
    exact ⟨hle, rfl, rfl⟩

end

-- ==== DECODE by the id, then the length (R152) ====

section
variable {c : Config} {id : Byte} {p : List Byte} {n : Nat}

theorem decodeMessage_of_not_mem (h : id ∉ c.ids) (p : List Byte) :
    decodeMessage c id p = .error (.unknownPacketId id) :=
  if_pos ((kindOf_unknown_iff c id).mpr h)

theorem kindOf_ne_unknown (h : id ∈ c.ids) : kindOf c id ≠ .unknown := fun hk => (kindOf_unknown_iff c id).mp hk h

theorem decodeMessage_of_probe_unknown (h : id ∈ c.ids) (hp : sizeProbe c id p = .unknown) :
    decodeMessage c id p = .error .deserializationError := by
  simp only [decodeMessage, if_neg (kindOf_ne_unknown h), hp]

theorem decodeMessage_of_short (h : id ∈ c.ids) (hp : sizeProbe c id p = .known n) (hn : p.length < n) :
    decodeMessage c id p = .error .deserializationError := by
  simp only [decodeMessage, if_neg (kindOf_ne_unknown h), hp, if_pos hn]

/-- The first bytes of a payload, as many as its probe says, have that probe. -/
theorem sizeProbe_take (hp : sizeProbe c id p = .known n) (hn : n ≤ p.length) :
    sizeProbe c id (p.take n) = .known (p.take n).length := by
  rw [List.length_take_of_le hn]
  exact sizeProbe_of_prefix (List.take_prefix n p) hp (List.length_take_of_le hn).ge

/-- Bytes past the probed length do not reach the message (D13). -/
theorem decodeMessage_take (hp : sizeProbe c id p = .known n) (hn : n ≤ p.length) :
    decodeMessage c id (p.take n) = decodeMessage c id p := by
  simp only [decodeMessage, hp, sizeProbe_take hp hn, List.take_length, lt_irrefl, if_false, if_neg hn.not_gt]

/-- A payload long enough is decoded by its kind from its first bytes. -/
theorem decodeMessage_of_kind {k : Kind} {m : Message} (hk : kindOf c id = k) (hp : sizeProbe c id p = .known n)
    (hn : n ≤ p.length) (hm : decodeKind k id (p.take n) = .ok m) : decodeMessage c id p = .ok m := by
  have hne : k ≠ .unknown := by
    rintro rfl
    cases hm
  rw [← decodeMessage_take hp hn, decodeMessage_of_probe hk hne (sizeProbe_take hp hn), hm]

end

/-- Settles O33, by the three tests of DECODE. -/
theorem decodeChecksTheIdThenTheLength : Obligations.DecodeChecksTheIdThenTheLength := by
  refine fun s id p => ⟨fun hid => exec_decode_of_error (decodeMessage_of_not_mem hid p),
    fun hid => ⟨fun hp => exec_decode_of_error (decodeMessage_of_probe_unknown hid hp), fun n hp => ⟨fun hn => ?_,
      fun hn => ?_⟩⟩⟩
  · exact exec_decode_of_error (decodeMessage_of_short hid hp hn)
  · rcases decodeMessage_of_fits hp hn with ⟨hk, -⟩ | ⟨m, hm⟩
    · exact absurd hk (kindOf_ne_unknown hid)
    · exact ⟨m, exec_decode_of_ok hm, exec_decode_of_ok ((decodeMessage_take hp hn).trans hm)⟩

-- ==== An id outside the catalog (R154, R213) ====

theorem sizeProbe_of_not_mem {c : Config} {id : Byte} (h : id ∉ c.ids) (p : List Byte) :
    sizeProbe c id p = .known 0 := by
  simp only [sizeProbe, (kindOf_unknown_iff c id).mpr h]

/-- CAT_ENCODE of a message of the catalog answers an id of the catalog. -/
theorem mem_ids_of_encodeMessage {c : Config} {m : Message} {id : Byte} {p : List Byte} (hw : m.wf c = true)
    (h : encodeMessage c m = .ok (id, p)) : id ∈ c.ids := by
  cases m with
  | bulkCapacitance startIndex values =>
    obtain ⟨-, rfl, -⟩ := encodeMessage_bulk_ok h
    simp [Config.ids]
  | extra id' bytes =>
    cases h
    have hk : kindOf c id = .extra p.length := by simpa [Message.wf] using hw
    by_contra hid
    rw [(kindOf_unknown_iff c id).mpr hid] at hk
    cases hk
  | electrodeEnable | activeCapacitance | ack | motionCmd =>
    cases h
    simp [Config.ids]

/-- Settles O34: an id the dispatch finds nowhere has the length 0, and a message's id is one it finds. -/
theorem unknownIdIsADefinedOutcome : Obligations.UnknownIdIsADefinedOutcome := by
  refine fun s id hid => ⟨fun p => ⟨exec_sizeProbe_of (sizeProbe_of_not_mem hid p),
    exec_decode_of_error (decodeMessage_of_not_mem hid p)⟩, fun m p hw h => ?_, fun hb => ?_⟩
  · exact hid (mem_ids_of_encodeMessage hw (encodeMessage_of_exec h rfl))
  · rw [rbIsComplete_iff, idByte, hb, sizeProbe_of_not_mem hid]
    constructor
    · rintro ⟨-, n, hn, hcount⟩
      cases hn
      exact hcount
    · intro hcount
      exact ⟨by omega, 0, rfl, hcount⟩

/-- Settles O30: the frame of an unknown id is a whole frame with no payload, which no decode gives a message. -/
theorem unknownFramesAreReported : Obligations.UnknownFramesAreReported := by
  rintro s id ckA ckB ⟨hw, -⟩ hid
  refine ⟨?_, cksum_singleton id⟩
  have h := frameAnswer_of_probe (i := .unknown id ckA ckB) (p := []) rfl hw (Nat.zero_le _)
    (sizeProbe_of_not_mem hid [])
  rwa [decodeMessage_of_not_mem hid, outcomeOfDecode] at h

-- ==== The probe of each kind (R151) ====

@[simp] theorem sizeProbe_electrodeEnable (c : Config) (p : List Byte) :
    sizeProbe c c.idElectrodeEnable p = .known 16 := by
  simp only [sizeProbe, kindOf_electrodeEnable]

theorem sizeProbe_activeCapacitance {c : Config} (hc : c.Valid) (p : List Byte) :
    sizeProbe c c.idActiveCapacitance p = .known 4 := by
  obtain ⟨-, hk, -⟩ := kindOf_valid hc
  simp only [sizeProbe, hk]

theorem sizeProbe_ack {c : Config} (hc : c.Valid) (p : List Byte) :
    sizeProbe c c.idAck p = .known c.ackLen.val := by
  obtain ⟨-, -, hk, -⟩ := kindOf_valid hc
  simp only [sizeProbe, hk]

theorem sizeProbe_motionCmd {c : Config} (hc : c.Valid) (p : List Byte) :
    sizeProbe c c.idMotionCmd p = .known 4 := by
  obtain ⟨-, -, -, hk, -⟩ := kindOf_valid hc
  simp only [sizeProbe, hk]

theorem sizeProbe_extra {c : Config} (hc : c.Valid) {k : ExtraKind} (hmem : k ∈ c.extraKinds) (p : List Byte) :
    sizeProbe c k.id p = .known k.len := by
  obtain ⟨-, -, -, -, hk⟩ := kindOf_valid hc
  simp only [sizeProbe, hk k hmem]

theorem sizeProbe_bulk_unknown_iff {c : Config} {id : Byte} {p : List Byte} (hk : kindOf c id = .bulkCapacitance) :
    sizeProbe c id p = .unknown ↔ p.length < 2 := by
  rw [sizeProbe_of_bulk hk]
  split_ifs with h <;> simp [h]

theorem sizeProbe_bulk_cons {c : Config} {id : Byte} (hk : kindOf c id = .bulkCapacitance) (startIndex cnt : Byte)
    (l : List Byte) : sizeProbe c id (startIndex :: cnt :: l) = .known (2 + 2 * cnt.toNat) := by
  rw [sizeProbe_of_bulk hk, if_neg (by simp)]
  rfl

/-- Settles O32, kind by kind. -/
theorem sizeProbeAnswersPerKind : Obligations.SizeProbeAnswersPerKind := by
  intro s p hc
  obtain ⟨hbulk, -⟩ := kindOf_valid hc
  refine ⟨exec_sizeProbe_of (sizeProbe_electrodeEnable _ p), fun h => ?_, ?_,
    exec_sizeProbe_of (sizeProbe_activeCapacitance hc p), exec_sizeProbe_of (sizeProbe_ack hc p),
    exec_sizeProbe_of (sizeProbe_motionCmd hc p), fun k hk => exec_sizeProbe_of (sizeProbe_extra hc hk p),
    fun id hid => exec_sizeProbe_of (sizeProbe_of_not_mem hid p)⟩
  · exact exec_sizeProbe_of ((sizeProbe_bulk_unknown_iff hbulk).mpr h)
  · rintro p0 p1 rest rfl
    exact exec_sizeProbe_of (sizeProbe_bulk_cons hbulk p0 p1 rest)

-- ==== Fields in a run of bytes (R158, R159) ====

/-- Field `i` of a run of bytes is the little-endian pair at offset `2 * i`. -/
theorem getElem?_halvesOf {l : List Byte} {i : Nat} {lo hi : Byte} (hlo : l[2 * i]? = some lo)
    (hhi : l[2 * i + 1]? = some hi) : (halvesOf l)[i]? = some (u16le lo hi) := by
  induction i generalizing l with
  | zero =>
    match l, hlo, hhi with
    | _ :: _ :: _, hlo, hhi =>
      cases hlo
      cases hhi
      rfl
  | succ i ih =>
    match l, hlo, hhi with
    | _ :: _ :: rest, hlo, hhi => exact ih (l := rest) hlo hhi

/-- The bytes at offset `2 * i` of a written list are the two of its field `i`. -/
theorem getElem?_halvesBytes {vs : List Half} {i : Nat} {v : Half} (h : vs[i]? = some v) :
    (halvesBytes vs)[2 * i]? = some (loByte v) ∧ (halvesBytes vs)[2 * i + 1]? = some (hiByte v) := by
  induction i generalizing vs with
  | zero =>
    match vs, h with
    | _ :: _, h =>
      cases h
      exact ⟨rfl, rfl⟩
  | succ i ih =>
    match vs, h with
    | _ :: vs, h => exact ih (vs := vs) h

-- ==== BULK_CAPACITANCE (R157 to R159) ====

section
variable {c : Config} {cnt : Byte} {l : List Byte}

theorem decodeMessage_bulk_of_fits (hc : c.Valid) (startIndex : Byte) (hl : 2 * cnt.toNat ≤ l.length) :
    decodeMessage c c.idBulkCapacitance (startIndex :: cnt :: l) =
      .ok (.bulkCapacitance startIndex (halvesOf (l.take (2 * cnt.toNat)))) := by
  obtain ⟨hbulk, -⟩ := kindOf_valid hc
  refine decodeMessage_of_kind hbulk (sizeProbe_bulk_cons hbulk startIndex cnt l) (by simp; omega) ?_
  rw [Nat.add_comm 2]
  rfl

/-- As many fields as the count byte says, each at its offset. -/
theorem halvesOf_take (hl : 2 * cnt.toNat ≤ l.length) :
    (halvesOf (l.take (2 * cnt.toNat))).length = cnt.toNat ∧
      ∀ i, i < cnt.toNat → ∃ v lo hi, (halvesOf (l.take (2 * cnt.toNat)))[i]? = some v ∧ l[2 * i]? = some lo ∧
        l[2 * i + 1]? = some hi ∧ v.toNat = lo.toNat + hi.toNat * 256 := by
  obtain ⟨hlen, -⟩ := halvesOf_of_length (List.length_take_of_le hl)
  refine ⟨hlen, fun i hi => ?_⟩
  have hlo : l[2 * i]? = some (l[2 * i]'(by omega)) := List.getElem?_eq_getElem _
  have hhi : l[2 * i + 1]? = some (l[2 * i + 1]'(by omega)) := List.getElem?_eq_getElem _
  refine ⟨_, _, _, getElem?_halvesOf ?_ ?_, hlo, hhi, u16le_toNat _ _⟩
  · rw [List.getElem?_take_of_lt (by omega), hlo]
  · rw [List.getElem?_take_of_lt (by omega), hhi]

/-- The count byte says the number of values, up to 255 (R159). -/
theorem toNat_ofNat_of_le {n : Nat} (h : n ≤ 255) : (BitVec.ofNat 8 n).toNat = n :=
  Nat.mod_eq_of_lt (by omega)

theorem encodeFrame_of_long {id : Byte} {payload : List Byte} (h : c.encMaxPayload < payload.length) :
    encodeFrame c id payload = .error .payloadTooLong :=
  if_pos h

theorem exec_encodeMsg_of_long {s : State} {m : Message} {id : Byte} {payload : List Byte}
    (hm : encodeMessage s.config m = .ok (id, payload)) (h : s.config.encMaxPayload < payload.length) :
    exec (.encodeMsg m) s = .next { s with result := .refused .payloadTooLong } := by
  simp only [exec_encodeMsg, encodeMessageFrame, hm, encodeFrame_of_long h]
  rfl

end

theorem sizeProbe_bulk_rbPayload {s : State} (hk : kindOf s.config s.config.idBulkCapacitance = .bulkCapacitance) :
    sizeProbe s.config s.config.idBulkCapacitance (rbPayload s) = .unknown ↔ s.count.val < 5 := by
  rw [sizeProbe_bulk_unknown_iff hk, rbPayload_length]
  omega

/-- Settles O36, clause by clause: the probe, DECODE, CAT_ENCODE, and the bound of ENCODE_MSG. -/
theorem bulkCapacitanceCountIsTheSecondByte : Obligations.BulkCapacitanceCountIsTheSecondByte := by
  intro s hc
  obtain ⟨hbulk, -⟩ := kindOf_valid hc
  have hid : s.config.idBulkCapacitance ∈ s.config.ids := by simp [Config.ids]
  refine ⟨sizeProbe_bulk_rbPayload hbulk, fun p hp => ?_, fun startIndex cnt l => ?_, fun startIndex values => ?_⟩
  · have hprobe := (sizeProbe_bulk_unknown_iff hbulk).mpr hp
    exact ⟨exec_sizeProbe_of hprobe, exec_decode_of_error (decodeMessage_of_probe_unknown hid hprobe)⟩
  · have hprobe := sizeProbe_bulk_cons hbulk startIndex cnt l
    refine ⟨exec_sizeProbe_of hprobe, fun hl => ?_, fun hl => ?_⟩
    · exact exec_decode_of_error (decodeMessage_of_short hid hprobe (by simp; omega))
    · exact ⟨_, exec_decode_of_ok (decodeMessage_bulk_of_fits hc startIndex hl), halvesOf_take hl⟩
  · refine ⟨fun hlen => ⟨_, _, exec_catEncode_of_ok (encodeMessage_bulk_of_le hlen), toNat_ofNat_of_le hlen,
      halvesBytes_length values, fun i v hv => ?_⟩, fun hlen => ?_, fun h62 hlen hmax => ?_⟩
    · obtain ⟨hlo, hhi⟩ := getElem?_halvesBytes hv
      exact ⟨_, _, hlo, hhi, loByte_toNat v, hiByte_toNat v⟩
    · exact exec_catEncode_of_error (encodeMessage_bulk_of_gt hlen)
    · exact exec_encodeMsg_of_long (encodeMessage_bulk_of_le hlen) (by simp [hmax]; omega)

-- ==== The fixed-size kinds (R156, R160 to R163) ====

/-- Settles O35. -/
theorem electrodeEnableMaskIsCopied : Obligations.ElectrodeEnableMaskIsCopied := by
  intro s p
  have hprobe := sizeProbe_electrodeEnable s.config p
  exact ⟨exec_sizeProbe_of hprobe,
    fun h => exec_decode_of_error (decodeMessage_of_short (by simp [Config.ids]) hprobe h),
    fun h => exec_decode_of_ok (decodeMessage_of_kind (kindOf_electrodeEnable _) hprobe h rfl),
    exec_catEncode_of_ok rfl⟩

/-- Settles O37: the two fields are the pairs at offsets 0 and 2. -/
theorem activeCapacitanceIsLittleEndian : Obligations.ActiveCapacitanceIsLittleEndian := by
  intro s hc
  obtain ⟨-, hk, -⟩ := kindOf_valid hc
  have hprobe := sizeProbe_activeCapacitance hc
  refine ⟨fun p => ⟨exec_sizeProbe_of (hprobe p), fun h => ?_⟩, fun p0 p1 p2 p3 => ?_, fun baseline measurement => ?_⟩
  · exact exec_decode_of_error (decodeMessage_of_short (by simp [Config.ids]) (hprobe p) h)
  · exact ⟨u16le p0 p1, u16le p2 p3, exec_decode_of_ok (decodeMessage_of_kind hk (hprobe _) le_rfl rfl),
      u16le_toNat _ _, u16le_toNat _ _⟩
  · exact ⟨_, _, _, _, exec_catEncode_of_ok rfl, loByte_toNat _, hiByte_toNat _, loByte_toNat _, hiByte_toNat _⟩

/-- Settles O38, by the two values of `ACK_LEN`. -/
theorem ackHasTheConfiguredLength : Obligations.AckHasTheConfiguredLength := by
  intro s hc
  obtain ⟨-, -, hk, -⟩ := kindOf_valid hc
  have hprobe := sizeProbe_ack hc
  refine ⟨fun p => exec_sizeProbe_of (hprobe p), fun hlen => ?_, fun hlen => ?_⟩ <;> rw [hlen] at hprobe
  · exact ⟨exec_decode_of_error (decodeMessage_of_short (by simp [Config.ids]) (hprobe []) Nat.one_pos),
      fun d p => ⟨exec_decode_of_ok (decodeMessage_of_kind hk (hprobe _) (by simp) rfl), exec_catEncode_of_ok rfl⟩⟩
  · exact ⟨fun p => exec_decode_of_ok (decodeMessage_of_kind hk (hprobe p) (Nat.zero_le _) rfl),
      exec_catEncode_of_ok rfl⟩

/-- The signed reading of a 16-bit field (R11, G2). -/
theorem half_toInt (v : Half) : v.toInt = if v.toNat < 32768 then (v.toNat : Int) else (v.toNat : Int) - 65536 := by
  rw [BitVec.toInt_eq_toNat_cond]
  split_ifs <;> omega

theorem half_toNat_of_nonneg {v : Half} (h : 0 ≤ v.toInt) : (v.toNat : Int) = v.toInt := by
  rw [half_toInt] at h ⊢
  have := v.isLt
  split_ifs at h ⊢ <;> omega

theorem half_toNat_of_neg {v : Half} (h : v.toInt < 0) : (v.toNat : Int) = v.toInt + 65536 := by
  rw [half_toInt] at h ⊢
  split_ifs at h ⊢ <;> omega

/-- Settles O39: the fields are those of O37, the first read signed. -/
theorem motionCmdStepsIsTwosComplement : Obligations.MotionCmdStepsIsTwosComplement := by
  intro s hc
  obtain ⟨-, -, -, hk, -⟩ := kindOf_valid hc
  have hprobe := sizeProbe_motionCmd hc
  refine ⟨fun p => ⟨exec_sizeProbe_of (hprobe p), fun h => ?_⟩, fun p0 p1 p2 p3 => ?_, fun steps period => ?_⟩
  · exact exec_decode_of_error (decodeMessage_of_short (by simp [Config.ids]) (hprobe p) h)
  · refine ⟨u16le p0 p1, u16le p2 p3, exec_decode_of_ok (decodeMessage_of_kind hk (hprobe _) le_rfl rfl),
      fun h => ?_, fun h => ?_, u16le_toNat _ _⟩ <;> rw [half_toInt, u16le_toNat]
    · exact if_pos h
    · exact if_neg h.not_gt
  · refine ⟨loByte steps, hiByte steps, _, _, exec_catEncode_of_ok rfl, fun h => ?_, fun h => ?_, loByte_toNat _,
      hiByte_toNat _⟩ <;> rw [loByte_toNat, hiByte_toNat]
    · rw [← half_toNat_of_nonneg h]
      exact ⟨Int.natCast_emod _ _, Int.natCast_ediv _ _⟩
    · rw [← half_toNat_of_neg h]
      exact ⟨Int.natCast_emod _ _, Int.natCast_ediv _ _⟩

/-- Settles O40: the length a configured kind declares is its probe (R163). -/
theorem extraKindsAreOpaqueBytes : Obligations.ExtraKindsAreOpaqueBytes := by
  intro s k hc hmem
  obtain ⟨-, -, -, -, hk⟩ := kindOf_valid hc
  have hprobe := sizeProbe_extra hc hmem
  obtain ⟨-, hlen⟩ := hc
  exact ⟨hlen k hmem, fun p => ⟨exec_sizeProbe_of (hprobe p),
    fun h => exec_decode_of_ok (decodeMessage_of_kind (hk k hmem) (hprobe p) h rfl)⟩, fun _ => exec_catEncode_of_ok rfl⟩

-- ==== The three functions agree (R164) ====

/-- A message's payload has the length its id's probe says, and the kind's decode gives the message back. -/
theorem probe_decode_of_encodeMessage {c : Config} {m : Message} {id : Byte} {p : List Byte} (hc : c.Valid)
    (hw : m.wf c = true) (h : encodeMessage c m = .ok (id, p)) :
    sizeProbe c id p = .known p.length ∧ decodeKind (kindOf c id) id p = .ok m := by
  obtain ⟨hbulk, hactive, hack, hmotion, -⟩ := kindOf_valid hc
  cases m with
  | electrodeEnable mask =>
    cases h
    have hlen : p.length = 16 := by simpa [Message.wf] using hw
    exact ⟨by simp [hlen], by simp [decodeKind, decodeElectrodeEnable]⟩
  | bulkCapacitance startIndex values =>
    obtain ⟨hlen, rfl, rfl⟩ := encodeMessage_bulk_ok h
    exact ⟨sizeProbe_bulk_payload hc startIndex (toNat_ofNat_of_le hlen).symm,
      by simp [hbulk, decodeKind, decodeBulkCapacitance, byteAt]⟩
  | activeCapacitance baseline measurement =>
    cases h
    exact ⟨sizeProbe_activeCapacitance hc _,
      by simp [hactive, decodeKind, decodeActiveCapacitance, halfBytes, halfAt, byteAt]⟩
  | ack d =>
    cases h
    have hlen : d.toList.length = c.ackLen.val := by simpa [Message.wf] using hw
    exact ⟨by rw [sizeProbe_ack hc, hlen], by simp [hack, decodeKind, decodeAck]⟩
  | motionCmd steps period =>
    cases h
    exact ⟨sizeProbe_motionCmd hc _,
      by simp [hmotion, decodeKind, decodeMotionCmd, halfBytes, halfAt, byteAt]⟩
  | extra id' bytes =>
    cases h
    have hk : kindOf c id = .extra p.length := by simpa [Message.wf] using hw
    exact ⟨by simp [sizeProbe, hk], by simp [hk, decodeKind, decodeExtra]⟩

/-- Only a bulk payload below two bytes has no known length (R157). -/
theorem sizeProbe_ne_unknown {c : Config} {id : Byte} {p : List Byte} (h : id ≠ c.idBulkCapacitance ∨ 2 ≤ p.length) :
    sizeProbe c id p ≠ .unknown := by
  by_cases hk : kindOf c id = .bulkCapacitance
  · have h2 : 2 ≤ p.length := h.resolve_left (not_not_intro (kindId_of_kindOf hk).symm)
    exact fun hu => h2.not_gt ((sizeProbe_bulk_unknown_iff hk).mp hu)
  · obtain ⟨-, n, hn⟩ := sizeProbe_of_not_bulk hk p p
    simp [hn]

/-- Settles O41: the payload fits its probe, which along its prefixes is unknown or its length. -/
theorem catalogFunctionsAgree : Obligations.CatalogFunctionsAgree := by
  intro s t m id p hc hw h hr
  obtain ⟨hp, hm⟩ := probe_decode_of_encodeMessage hc hw (encodeMessage_of_exec h hr)
  obtain ⟨-, hprefix⟩ := probeFits_of_probe hp
  exact ⟨fun k hk => exec_sizeProbe_of ((hprefix k).resolve_left (sizeProbe_ne_unknown hk)),
    exec_decode_of_ok (decodeMessage_of_kind rfl hp le_rfl (by rwa [List.take_length]))⟩

end Sys2Proof.Machine
end

section
/-! PROOFS. The statements about the frame encoder. What ENCODE returns is one equation about `encodeFrame`; the stuffed bytes are
known byte by byte; and fed to the parser they are the stores of the frame's bytes, of which only the last answers. -/

namespace Sys2Proof.Machine

-- ==== What the encoder calls return (R190, R194, R195) ====

section
variable {c : Config} {s t : State} {id : Byte} {payload w : List Byte} {m : Message}

/-- The wire bytes of the frame of this id and payload (R190). -/
def frameWire (id : Byte) (payload : List Byte) : List Byte :=
  flagByte :: stuffAll (id :: payload ++ [(cksum (id :: payload)).1, (cksum (id :: payload)).2])

theorem encodeFrame_of_le (h : payload.length ≤ c.encMaxPayload) :
    encodeFrame c id payload = .ok (frameWire id payload) :=
  if_neg h.not_gt

/-- ENCODE answers bytes exactly within the bound, and then those of the frame. -/
theorem encodeFrame_eq_ok_iff :
    encodeFrame c id payload = .ok w ↔ payload.length ≤ c.encMaxPayload ∧ w = frameWire id payload := by
  rcases Nat.lt_or_ge c.encMaxPayload payload.length with h | h
  · simp [encodeFrame_of_long h, h.not_ge]
  · simp [encodeFrame_of_le h, h, eq_comm]

/-- ENCODE refuses exactly over the bound (R194). -/
theorem encodeFrame_eq_error_iff {r : EncodeRefusal} :
    encodeFrame c id payload = .error r ↔ c.encMaxPayload < payload.length ∧ r = .payloadTooLong := by
  rcases Nat.lt_or_ge c.encMaxPayload payload.length with h | h
  · simp [encodeFrame_of_long h, h, eq_comm]
  · simp [encodeFrame_of_le h, h.not_gt]

theorem transmit_result_eq_bytes_iff {r : Except EncodeRefusal (List Byte)} :
    (transmit r s).result = .bytes w ↔ r = .ok w := by
  cases r <;> simp [transmit]

theorem transmit_result_eq_refused_iff {r : Except EncodeRefusal (List Byte)} {e : EncodeRefusal} :
    (transmit r s).result = .refused e ↔ r = .error e := by
  cases r <;> simp [transmit]

theorem encode_result_bytes (h : exec (.encode id payload) s = .next t) (hr : t.result = .bytes w) :
    payload.length ≤ s.config.encMaxPayload ∧ w = frameWire id payload := by
  cases (exec_encode id payload s).symm.trans h
  exact encodeFrame_eq_ok_iff.mp (transmit_result_eq_bytes_iff.mp hr)

theorem exec_encode_of_long (h : s.config.encMaxPayload < payload.length) :
    exec (.encode id payload) s = .next { s with result := .refused .payloadTooLong } := by
  rw [exec_encode, encodeFrame_of_long h]
  rfl

theorem encodeMessageFrame_of_ok (h : encodeMessage c m = .ok (id, payload)) :
    encodeMessageFrame c m = encodeFrame c id payload := by
  simp only [encodeMessageFrame, h]

theorem encodeMessageFrame_of_error {r : EncodeRefusal} (h : encodeMessage c m = .error r) :
    encodeMessageFrame c m = .error r := by
  simp only [encodeMessageFrame, h]

/-- A refusal that CAT_ENCODE returns is the catalog's (R155). -/
theorem encodeMessage_of_exec_refused {r : EncodeRefusal} (h : exec (.catEncode m) s = .next t)
    (hr : t.result = .refused r) : encodeMessage s.config m = .error r := by
  cases hm : encodeMessage s.config m with
  | ok e =>
    cases (exec_catEncode_of_ok hm).symm.trans h
    cases hr
  | error r' =>
    cases (exec_catEncode_of_error hm).symm.trans h
    cases hr
    rfl

/-- Bytes of ENCODE_MSG are those of the frame of what CAT_ENCODE gives (R195). -/
theorem encodeMessageFrame_ok (h : encodeMessageFrame c m = .ok w) :
    ∃ id payload, encodeMessage c m = .ok (id, payload) ∧ payload.length ≤ c.encMaxPayload ∧ w = frameWire id payload := by
  cases hm : encodeMessage c m with
  | ok e =>
    obtain ⟨id, payload⟩ := e
    rw [encodeMessageFrame_of_ok hm] at h
    exact ⟨id, payload, rfl, encodeFrame_eq_ok_iff.mp h⟩
  | error r => cases (encodeMessageFrame_of_error hm).symm.trans h

end

-- ==== STUFF, byte by byte (R191) ====

theorem stuffByte_eq_ite (x : Byte) :
    stuffByte x = if x = 0x7D ∨ x = 0x7E then [0x7D, x ^^^ 0x20] else [x] := by
  simp only [stuffByte, isControl, Bool.or_eq_true, beq_iff_eq]
  rfl

theorem stuffAll_eq_flatMap (xs : List Byte) :
    stuffAll xs = xs.flatMap fun x => if x = 0x7D ∨ x = 0x7E then [0x7D, x ^^^ 0x20] else [x] := by
  induction xs with
  | nil => rfl
  | cons x xs ih => rw [stuffAll, ih, stuffByte_eq_ite, List.flatMap_cons]

@[simp] theorem stuffByte_esc : stuffByte escByte = [escByte, 0x5D] := rfl

@[simp] theorem stuffByte_flag : stuffByte flagByte = [escByte, 0x5E] := rfl

theorem stuffByte_of_not_control {x : Byte} (h : isControl x = false) : stuffByte x = [x] := by
  simp [stuffByte, h]

/-- The stuffed form of a byte is 7D 5D, 7D 5E, or the byte itself, which is then no control byte. -/
theorem stuffByte_cases (x : Byte) :
    stuffByte x = [escByte, 0x5D] ∨ stuffByte x = [escByte, 0x5E] ∨
      (x ≠ escByte ∧ x ≠ flagByte ∧ stuffByte x = [x]) := by
  by_cases h1 : x = escByte
  · exact .inl (h1 ▸ stuffByte_esc)
  by_cases h2 : x = flagByte
  · exact .inr (.inl (h2 ▸ stuffByte_flag))
  exact .inr (.inr ⟨h1, h2, stuffByte_of_not_control (isControl_eq_false_iff.mpr ⟨h1, h2⟩)⟩)

theorem stuffByte_ne_nil (x : Byte) : stuffByte x ≠ [] := by
  rcases stuffByte_cases x with hx | hx | ⟨-, -, hx⟩ <;> simp [hx]

theorem flag_notMem_stuffByte (x : Byte) : flagByte ∉ stuffByte x := by
  rcases stuffByte_cases x with hx | hx | ⟨-, hne, hx⟩ <;> rw [hx]
  · decide
  · decide
  · rw [List.mem_singleton]
    exact hne.symm

theorem flag_notMem_stuffAll (xs : List Byte) : flagByte ∉ stuffAll xs := by
  induction xs with
  | nil => exact List.not_mem_nil
  | cons x xs ih =>
    rw [stuffAll, List.mem_append, not_or]
    exact ⟨flag_notMem_stuffByte x, ih⟩

/-- Behind every 7D of a stuffed sequence stands 5D or 5E. -/
theorem stuffAll_after_esc {xs : List Byte} {k : Nat} (h : (stuffAll xs)[k]? = some escByte) :
    (stuffAll xs)[k + 1]? = some 0x5D ∨ (stuffAll xs)[k + 1]? = some 0x5E := by
  induction xs generalizing k with
  | nil => cases h
  | cons x xs ih =>
    rw [stuffAll] at h ⊢
    rcases stuffByte_cases x with hx | hx | ⟨hne, -, hx⟩ <;> rw [hx] at h ⊢
    · match k, h with
      | 0, _ => exact .inl rfl
      | 1, h => cases h
      | k + 2, h => exact ih h
    · match k, h with
      | 0, _ => exact .inr rfl
      | 1, h => cases h
      | k + 2, h => exact ih h
    · match k, h with
      | 0, h => exact absurd (Option.some.inj h) hne
      | k + 1, h => exact ih h

/-- Settles O43, by what STUFF makes of a byte, and for a sequence by induction over it. -/
theorem stuffingLeavesNoControlByteAlone : Obligations.StuffingLeavesNoControlByteAlone := by
  refine ⟨fun s x => ⟨?_, ?_, fun h1 h2 => ?_⟩, fun s t id payload w h hr => ?_⟩
  · rintro rfl
    exact exec_stuff _ s
  · rintro rfl
    exact exec_stuff _ s
  · rw [exec_stuff, stuffByte_of_not_control (isControl_eq_false_iff.mpr ⟨h1, h2⟩)]
    rfl
  · obtain ⟨-, rfl⟩ := encode_result_bytes h hr
    refine ⟨rfl, rfl, fun k hk hflag => ?_, fun k hesc => ?_⟩
    · match k, hk, hflag with
      | k + 1, _, hflag => exact flag_notMem_stuffAll _ (List.mem_of_getElem? (i := k) hflag)
    · match k, hesc with
      | 0, hesc => cases hesc
      | k + 1, hesc => exact stuffAll_after_esc (k := k) hesc

-- ==== How long the output is (R193) ====

theorem length_stuffByte (x : Byte) : (stuffByte x).length = 1 + if isControl x then 1 else 0 := by
  unfold stuffByte
  split <;> rfl

theorem length_stuffAll (xs : List Byte) : (stuffAll xs).length = xs.length + xs.countP isControl := by
  induction xs with
  | nil => rfl
  | cons x xs ih =>
    rw [stuffAll, List.length_append, length_stuffByte, ih, List.countP_cons, List.length_cons]
    omega

theorem length_frameWire (id : Byte) (payload : List Byte) :
    (frameWire id payload).length = 1 + (payload.length + 3) +
      (id :: payload ++ [(cksum (id :: payload)).1, (cksum (id :: payload)).2]).countP isControl := by
  rw [frameWire, List.length_cons, length_stuffAll]
  simp
  omega

/-- Settles O44: one byte for the flag, one for each byte of the frame, and one more for each of these that is stuffed. -/
theorem encodeLengthCountsTheStuffedBytes : Obligations.EncodeLengthCountsTheStuffedBytes := by
  intro s t id payload w h hr
  obtain ⟨hle, rfl⟩ := encode_result_bytes h hr
  have hlen := length_frameWire id payload
  have hcount : (id :: payload ++ [(cksum (id :: payload)).1, (cksum (id :: payload)).2]).countP isControl ≤
      payload.length + 3 := List.countP_le_length.trans (by simp)
  exact ⟨hlen, by omega, fun hmax => by omega⟩

-- ==== ENCODE and ENCODE_MSG (R190, R194, R195) ====

/-- Settles O42, on both sides of the bound. -/
theorem encodeFramesIdPayloadAndChecksum : Obligations.EncodeFramesIdPayloadAndChecksum := by
  refine fun s id payload w => ⟨fun hle hw => ?_, exec_encode_of_long⟩
  rw [← stuffAll_eq_flatMap] at hw
  rw [exec_encode, encodeFrame_of_le hle, hw]
  rfl

/-- Settles O45: the encoder's only refusal is the one over the bound. -/
theorem encodeRefusesLongPayloads : Obligations.EncodeRefusesLongPayloads := by
  refine fun s id payload => ⟨exec_encode_of_long, fun t r h hr => ?_⟩
  cases (exec_encode id payload s).symm.trans h
  obtain ⟨hlong, -⟩ := encodeFrame_eq_error_iff.mp (transmit_result_eq_refused_iff.mp hr)
  exact hlong

/-- A payload of a catalog message that is longer than 125 bytes is a bulk list of more than 61 values (R8, R79). -/
theorem bulk_of_long_payload {c : Config} {m : Message} {id : Byte} {payload : List Byte} (hc : c.Valid)
    (hw : m.wf c = true) (h : encodeMessage c m = .ok (id, payload)) (hlong : maxPayload < payload.length) :
    ∃ startIndex values, m = .bulkCapacitance startIndex values ∧ 62 ≤ values.length ∧ values.length ≤ 255 := by
  obtain ⟨hprobe, hdec⟩ := probe_decode_of_encodeMessage hc hw h
  have hbulk : kindOf c id = .bulkCapacitance := by
    by_contra hk
    exact hlong.not_ge (sizeProbe_le_of_not_bulk hc hk hprobe)
  rw [hbulk] at hdec
  cases hdec
  obtain ⟨hle, -, hp⟩ := encodeMessage_bulk_ok h
  have hlen := congrArg List.length hp
  simp only [List.length_cons, halvesBytes_length] at hlen
  rw [maxPayload_eq] at hlong
  exact ⟨_, _, rfl, by omega, hle⟩

/-- CAT_ENCODE's only refusal is the list longer than its count byte holds (D14). -/
theorem encodeMessage_error {c : Config} {m : Message} {r : EncodeRefusal} (h : encodeMessage c m = .error r) :
    r = .tooManyValues := by
  cases m with
  | bulkCapacitance startIndex values =>
    rcases Nat.lt_or_ge 255 values.length with hlt | hle
    · cases (encodeMessage_bulk_of_gt hlt).symm.trans h
      rfl
    · cases (encodeMessage_bulk_of_le hle).symm.trans h
  | electrodeEnable | activeCapacitance | ack | motionCmd | extra => cases h

/-- ENCODE_MSG refuses as too long exactly a payload of CAT_ENCODE over the bound (R195). -/
theorem encodeMessageFrame_tooLong_iff {c : Config} {m : Message} :
    encodeMessageFrame c m = .error .payloadTooLong ↔
      ∃ id payload, encodeMessage c m = .ok (id, payload) ∧ c.encMaxPayload < payload.length := by
  cases hm : encodeMessage c m with
  | ok e =>
    obtain ⟨id, payload⟩ := e
    rw [encodeMessageFrame_of_ok hm, encodeFrame_eq_error_iff]
    simp
  | error r =>
    rw [encodeMessageFrame_of_error hm, encodeMessage_error hm]
    simp

/-- At the bound 125 the messages of the catalog refused as too long are the bulk lists of 62 to 255 values (D8, D14). -/
theorem encodeMessageFrame_tooLong_iff_bulk {c : Config} {m : Message} (hc : c.Valid) (hmax : c.encMaxPayload = 125)
    (hw : m.wf c = true) :
    encodeMessageFrame c m = .error .payloadTooLong ↔
      ∃ startIndex values, m = .bulkCapacitance startIndex values ∧ 62 ≤ values.length ∧ values.length ≤ 255 := by
  rw [encodeMessageFrame_tooLong_iff, hmax]
  constructor
  · rintro ⟨id, payload, h, hlong⟩
    exact bulk_of_long_payload hc hw h hlong
  · rintro ⟨startIndex, values, rfl, h62, h255⟩
    exact ⟨_, _, encodeMessage_bulk_of_le h255, by simp; omega⟩

/-- Settles O46, by what CAT_ENCODE answers. -/
theorem encodeMsgIsCatEncodeThenEncode : Obligations.EncodeMsgIsCatEncodeThenEncode := by
  refine fun s m => ⟨fun id p h => ?_, fun r h => ?_, _, exec_encodeMsg m s, fun hc hmax hw => ?_⟩
  · rw [exec_encodeMsg, exec_encode, encodeMessageFrame_of_ok (encodeMessage_of_exec h rfl)]
  · rw [exec_encodeMsg, encodeMessageFrame_of_error (encodeMessage_of_exec_refused h rfl)]
    rfl
  · rw [transmit_result_eq_refused_iff, encodeMessageFrame_tooLong_iff_bulk hc hmax hw]

-- ==== The wire bytes of a frame, fed to the parser (R199) ====

theorem outcomesOf_cons (b : Byte) {w : List Byte} (hw : w ≠ []) (o : ParseOutcome) :
    outcomesOf (b :: w) o = .outcome .none :: outcomesOf w o := by
  have hlen : (b :: w).length - 1 = (w.length - 1) + 1 := by
    have := List.length_pos_iff.mpr hw
    simp only [List.length_cons]
    omega
  rw [outcomesOf, outcomesOf, hlen, List.replicate_succ, List.cons_append]

theorem outcomesOf_append (v : List Byte) {w : List Byte} (hw : w ≠ []) (o : ParseOutcome) :
    outcomesOf (v ++ w) o = List.replicate v.length (.outcome .none) ++ outcomesOf w o := by
  induction v with
  | nil => rfl
  | cons b v ih =>
    rw [List.cons_append, outcomesOf_cons b (List.append_ne_nil_of_right_ne_nil v hw), ih, List.length_cons,
      List.replicate_succ, List.cons_append]

/-- Stuffed bytes of which only the last store answers bring that answer on the last wire byte alone. -/
theorem feedAll_stuffAll_snoc {xs : List Byte} {x : Byte} {s : State} {o : ParseOutcome} (h : s.escaping = false)
    (hn : ∀ j, j < xs.length → (storeAll (xs.take (j + 1)) s).result = .outcome .none)
    (ho : (storeAll (xs ++ [x]) s).result = .outcome o) :
    feedAll (stuffAll (xs ++ [x])) s = (outcomesOf (stuffAll (xs ++ [x])) o, storeAll (xs ++ [x]) s) := by
  have hx : stuffAll [x] = stuffByte x := List.append_nil _
  rw [storeAll_snoc] at ho ⊢
  rw [stuffAll_append, hx, feedAll_append, feedAll_stuffAll_outcomes xs h hn, feedAll_stuffAll_state xs h,
    feedAll_stuffByte (storeAll_escaping h), ho, outcomesOf_append _ (stuffByte_ne_nil x)]
  rfl

section
variable {s : State} {id : Byte} {p : List Byte}

/-- Stored from an empty buffer, a frame whose probe fits answers nothing before its last byte. -/
theorem storeAll_before_last (ckA ckB : Byte) (hc : s.count.val = 0) (hw : s.buf.wf = true)
    (hl : p.length ≤ maxPayload) (hf : ProbeFits s.config id p) {j : Nat} (hj : j < (id :: p ++ [ckA]).length) :
    (storeAll ((id :: p ++ [ckA]).take (j + 1)) s).result = .outcome .none := by
  have htake : (id :: p ++ [ckA]).take (j + 1) = id :: (p ++ [ckA, ckB]).take j := by
    have h := List.take_append_of_le_length (l₂ := [ckB]) (Nat.succ_le_of_lt hj)
    simpa using h.symm
  obtain ⟨-, hnone⟩ := storeAll_prefix ckA ckB hc hw hl hf (j := j) (by simp at hj; omega)
  rwa [htake]

/-- Its last byte brings the catalog's answer if the trailer is the checksum, else ChecksumError, and the clean state. -/
theorem storeAll_frame_outcome (ckA ckB : Byte) (hc : s.count.val = 0) (hw : s.buf.wf = true)
    (hl : p.length ≤ maxPayload) (hf : ProbeFits s.config id p) :
    (storeAll (id :: p ++ [ckA, ckB]) s).Clean ∧
      (storeAll (id :: p ++ [ckA, ckB]) s).result = .outcome
        (if (ckA, ckB) = cksum (id :: p) then outcomeOfDecode (decodeMessage s.config id p)
          else .err (.checksumError (u16le ckA ckB) (u16le (cksum (id :: p)).1 (cksum (id :: p)).2))) := by
  obtain ⟨t, ht, hx⟩ := storeAll_frame ckA ckB hc hw hl hf
  rw [List.cons_append, hx, ← ht.frameOutcome]
  exact ⟨completeFrame_clean t, by rw [completeFrame_eq, emit_result]⟩

/-- Fed as one flag and its stuffed bytes, such a frame is answered on the last wire byte and nowhere before. -/
theorem feedAll_frame (ckA ckB : Byte) (hw : s.buf.wf = true) (hesc : s.escaping = false)
    (hl : p.length ≤ maxPayload) (hf : ProbeFits s.config id p) :
    ∃ u, feedAll (flagByte :: stuffAll (id :: p ++ [ckA, ckB])) s =
        (outcomesOf (flagByte :: stuffAll (id :: p ++ [ckA, ckB]))
          (if (ckA, ckB) = cksum (id :: p) then outcomeOfDecode (decodeMessage s.config id p)
            else .err (.checksumError (u16le ckA ckB) (u16le (cksum (id :: p)).1 (cksum (id :: p)).2))), u) ∧
      u.Clean ∧ sameOutside s u := by
  obtain ⟨hclean, hres⟩ := storeAll_frame_outcome (s := emit .none (fullReset s)) ckA ckB rfl hw hl hf
  have hbefore (j : Nat) (hj : j < (id :: p ++ [ckA]).length) :=
    storeAll_before_last (s := emit .none (fullReset s)) ckA ckB rfl hw hl hf hj
  have hsplit : id :: p ++ [ckA, ckB] = id :: p ++ [ckA] ++ [ckB] := by simp
  have hne : stuffAll (id :: p ++ [ckA, ckB]) ≠ [] := by simp [stuffAll, stuffByte_ne_nil]
  refine ⟨_, ?_, hclean, storeAll_sameOutside _ (emit .none (fullReset s))⟩
  rw [feedAll_cons (feed_flag hesc), outcomesOf_cons _ hne]
  rw [hsplit] at hres ⊢
  rw [feedAll_stuffAll_snoc rfl hbefore hres]
  rfl

end

/-- The encoder's bytes for a payload whose probe fits, fed to the parser, bring the catalog's answer on the last byte (R199). -/
theorem feedAll_frameWire {s : State} {id : Byte} {p : List Byte} (hw : s.buf.wf = true) (hesc : s.escaping = false)
    (hl : p.length ≤ maxPayload) (hf : ProbeFits s.config id p) :
    ∃ u, feedAll (frameWire id p) s =
        (outcomesOf (frameWire id p) (outcomeOfDecode (decodeMessage s.config id p)), u) ∧ u.Clean ∧ sameOutside s u := by
  have h := feedAll_frame (cksum (id :: p)).1 (cksum (id :: p)).2 hw hesc hl hf
  rwa [if_pos rfl] at h

/-- The outcome the parser makes of the catalog's answer is the one DECODE returns (R127, R152). -/
theorem outcomeOfDecode_of_exec {s t : State} {id : Byte} {p : List Byte} (h : exec (.decode id p) s = .next t) :
    (∀ m, t.result = .decodeOk m → outcomeOfDecode (decodeMessage s.config id p) = .msg m) ∧
      ∀ e, t.result = .decodeErr e → outcomeOfDecode (decodeMessage s.config id p) = .err e := by
  cases hd : decodeMessage s.config id p with
  | ok m =>
    cases (exec_decode_of_ok hd).symm.trans h
    refine ⟨fun m hm => ?_, fun e he => ?_⟩
    · cases hm; rfl
    · cases he
  | error e =>
    cases (exec_decode_of_error hd).symm.trans h
    refine ⟨fun m hm => ?_, fun e he => ?_⟩
    · cases hm
    · cases he; rfl

theorem probeFits_of_encodeMessage {c : Config} {m : Message} {id : Byte} {p : List Byte} (hc : c.Valid)
    (hw : m.wf c = true) (h : encodeMessage c m = .ok (id, p)) : ProbeFits c id p := by
  obtain ⟨hprobe, -⟩ := probe_decode_of_encodeMessage hc hw h
  exact probeFits_of_probe hprobe

/-- Settles O48: the encoder's bytes are the wire bytes of a frame with its own checksum as trailer. -/
theorem encodedFrameRoundTrips : Obligations.EncodedFrameRoundTrips := by
  refine ⟨fun s t id payload w hw hesc hl hf h hr => ?_, fun c m id payload => probeFits_of_encodeMessage,
    fun c id hid => probeFits_of_probe (sizeProbe_of_not_mem hid [])⟩
  obtain ⟨-, rfl⟩ := encode_result_bytes h hr
  obtain ⟨u, hfeed, hclean, hout⟩ := feedAll_frameWire hw hesc hl hf
  exact ⟨_, u, hfeed, hclean, hout, fun m hd => (outcomeOfDecode_of_exec hd).1 m rfl,
    fun e hd => (outcomeOfDecode_of_exec hd).2 e rfl⟩

/-- Settles O49: the payload fits its probe, and the catalog's answer to it is the message (R164). -/
theorem encodedMessageComesBack : Obligations.EncodedMessageComesBack := by
  rintro s t m w ⟨hbuf, hc⟩ hmax hesc hw h hr
  cases (exec_encodeMsg m s).symm.trans h
  obtain ⟨id, payload, hm, hle, rfl⟩ := encodeMessageFrame_ok (transmit_result_eq_bytes_iff.mp hr)
  obtain ⟨hprobe, hdec⟩ := probe_decode_of_encodeMessage hc hw hm
  have hmsg : decodeMessage s.config id payload = .ok m :=
    decodeMessage_of_kind rfl hprobe le_rfl (by rwa [List.take_length])
  have hfeed := feedAll_frameWire hbuf hesc (hle.trans hmax) (probeFits_of_probe hprobe)
  rwa [hmsg] at hfeed

end Sys2Proof.Machine
end

section
/-! PROOFS. The statement about progress: the outside world of R5 and R6 can ask for nothing that faults or is refused. -/

namespace Sys2Proof.Machine

/-- A host operation runs to a next state, in every state and whatever its operands (R215, log 18). -/
theorem exec_next_of_isHostOp {i : Instr} (hi : isHostOp i = true) (s : State) : ∃ t, exec i s = .next t := by
  cases i with
  | feed b => exact ⟨_, exec_feed b s⟩
  | reset => exact ⟨_, exec_reset s⟩
  | encode id payload => exact ⟨_, exec_encode id payload s⟩
  | encodeMsg m => exact ⟨_, exec_encodeMsg m s⟩
  | _ => cases hi

/-- Settles O59: such a step is idle (R226) or runs one host operation, and neither stops. -/
theorem hostDrivenMachineNeverStops : Obligations.HostDrivenMachineNeverStops := by
  intro s h
  rcases step_hostDriven_cases h with hidle | ⟨i, rest, hi, -, hrun⟩
  · exact ⟨_, hidle⟩
  · rw [hrun]
    exact exec_next_of_isHostOp hi { s with input := rest }

end Sys2Proof.Machine
end

section
/-! PROOFS. The statement about one corrupted payload byte. On the wire it is one changed byte, so the parser is fed a frame of the
changed payload that still carries the checksum of the old one; the probe asks for the same length, and the checksums differ. -/

namespace Sys2Proof.Machine

section
variable {x y : Byte}

-- ==== One payload byte changed: the wire, the payload and the probe (R250) ====

/-- A byte sent unstuffed is one wire byte, behind the stuffed bytes before it. -/
theorem set_stuffAll_append_cons (xs ys : List Byte) (hx : isControl x = false) (hy : isControl y = false) :
    (stuffAll (xs ++ x :: ys)).set (stuffAll xs).length y = stuffAll (xs ++ y :: ys) := by
  simp [stuffAll_append, stuffAll, stuffByte_of_not_control hx, stuffByte_of_not_control hy]

theorem byteAt_append_cons_of_ne {p : List Byte} {k : Nat} (hk : k ≠ p.length) (q : List Byte) (x y : Byte) :
    byteAt (p ++ x :: q) k = byteAt (p ++ y :: q) k := by
  rcases Nat.lt_or_gt_of_ne hk with h | h
  · rw [byteAt_append_left _ h, byteAt_append_left _ h]
  · obtain ⟨j, rfl⟩ := Nat.exists_eq_add_of_lt h
    simp [byteAt, List.getD_eq_getElem?_getD, Nat.add_assoc, List.getElem?_append_right]

/-- The probe reads no payload byte but the count byte of a bulk frame (R151, R157). -/
theorem sizeProbe_append_cons {c : Config} {id : Byte} {p : List Byte} (hcnt : id = c.idBulkCapacitance → p.length ≠ 1)
    (q : List Byte) (x y : Byte) : sizeProbe c id (p ++ x :: q) = sizeProbe c id (p ++ y :: q) := by
  by_cases hk : kindOf c id = .bulkCapacitance
  · have hid : c.idBulkCapacitance = id := kindId_of_kindOf hk
    rw [sizeProbe_of_bulk hk, sizeProbe_of_bulk hk, byteAt_append_cons_of_ne (hcnt hid.symm).symm q x y]
    simp only [List.length_append, List.length_cons]
  · exact (sizeProbe_of_not_bulk hk _ _).1

theorem ProbeFits.append_cons {c : Config} {id : Byte} {p q : List Byte} (h : ProbeFits c id (p ++ x :: q))
    (hcnt : id = c.idBulkCapacitance → p.length ≠ 1) (y : Byte) : ProbeFits c id (p ++ y :: q) := by
  obtain ⟨hx, -⟩ := h
  refine probeFits_of_probe ?_
  rw [sizeProbe_append_cons hcnt q y x, hx]
  simp

/-- The changed wire bytes are those of the changed payload, under the trailer of the old one. -/
theorem set_frameWire (id : Byte) (p q : List Byte) (hx : isControl x = false) (hy : isControl y = false) :
    (frameWire id (p ++ x :: q)).set (1 + (stuffAll (id :: p)).length) y =
      flagByte :: stuffAll (id :: (p ++ y :: q) ++ [(cksum (id :: (p ++ x :: q))).1, (cksum (id :: (p ++ x :: q))).2]) := by
  have h (k : Byte × Byte) := set_stuffAll_append_cons (id :: p) (q ++ [k.1, k.2]) hx hy
  rw [frameWire, Nat.add_comm, List.set_cons_succ]
  simpa using h (cksum (id :: (p ++ x :: q)))

-- ==== The checksum and its value in the report (R43, R95) ====

/-- Changing one byte changes the checksum: the new byte is the old one and a difference that is not zero (R95). -/
theorem cksum_ne_of_byte_ne (p q : List Byte) (hxy : x ≠ y) : cksum (p ++ x :: q) ≠ cksum (p ++ y :: q) := by
  have h := cksum_add_byte_ne p q x (sub_ne_zero.mpr hxy.symm)
  rw [add_sub_cancel] at h
  exact h.symm

theorem u16le_ne_of_ne {k k' : Byte × Byte} (h : k ≠ k') : u16le k.1 k.2 ≠ u16le k'.1 k'.2 := by
  intro heq
  obtain ⟨hlo, hhi⟩ := u16le_injective heq
  exact h (Prod.ext hlo hhi)

end

/-- Settles O50: the last byte of the changed frame finds the old checksum where the new payload's is expected. -/
theorem oneCorruptedPayloadByteIsReported : Obligations.OneCorruptedPayloadByteIsReported := by
  rintro s t id p q w w' x y hw hesc hl hf hx hy hxy hcnt h hr rfl
  obtain ⟨-, rfl⟩ := encode_result_bytes h hr
  have hne : cksum (id :: (p ++ x :: q)) ≠ cksum (id :: (p ++ y :: q)) := cksum_ne_of_byte_ne (id :: p) q hxy
  have hly : (p ++ y :: q).length ≤ maxPayload := by simpa using hl
  obtain ⟨u, hfeed, hclean, -⟩ := feedAll_frame (cksum (id :: (p ++ x :: q))).1 (cksum (id :: (p ++ x :: q))).2 hw hesc hly
    (hf.append_cons hcnt y)
  rw [if_neg hne, ← set_frameWire id p q hx hy] at hfeed
  exact ⟨_, _, u, hfeed, u16le_ne_of_ne hne, hclean⟩

end Sys2Proof.Machine
end

section
/-! PROOFS. The two statements about the model's fixed values: the state after power-on, and words written out under EX. -/

namespace Sys2Proof

open Machine

/-- EX meets the constraints of table R9 (log 2). -/
theorem Config.ex_valid : Config.ex.Valid := by decide

/-- Settles O2: the empty buffer is canonical and at rest, EX is valid, and no request waits (table R32, logs 3 and 6). -/
theorem powerOnIsCleanAndMeetsTheInvariants : Obligations.PowerOnIsCleanAndMeetsTheInvariants := by
  have hclean : State.reset.Clean := ⟨rfl, rfl⟩
  have hinv : State.reset.Inv := ⟨Memory.wf_nil, Config.ex_valid⟩
  have hrest : State.reset.atRest = true := State.atRest_of_empty hclean.1
  exact ⟨hclean, rfl, rfl, hinv, hrest, List.forall_mem_nil _⟩

/-- A word that is the encoding of a well-formed instruction under EX reads as that instruction, with nothing left over. -/
theorem decode_ex_of_encode {i : Instr} {l : Level} {bytes : List Byte} (hw : i.wf Config.ex = true)
    (he : encode Config.ex i = some (l, bytes)) : decode Config.ex l bytes = .ok (i, []) := by
  simpa using decodeOfEncodeIsTheInstruction Config.ex i l bytes [] Config.ex_valid hw he

/-- Settles O55: each word is the encoding of its instruction, which is well-formed under EX. -/
theorem sampleWordsDecode : Obligations.SampleWordsDecode := by
  refine ⟨?_, ?_, ?_, ?_, ?_, ?_, ?_⟩ <;> exact decode_ex_of_encode rfl rfl

end Sys2Proof
end
